-- ==== Sys2Proof/Word.lean ====
section
/-! DEFINITION. The words of the block.

A register name used as a value means the unsigned integer the register holds (00_scope.md R8), and
all arithmetic inside a rule is exact arithmetic on integers (R9): nothing wraps. A W-bit register
therefore holds a `Nat`, and "it fits W bits" is the bound `fits` (log 2). Bit vectors are
used where the spec reads bits: the opcode and its fields, the error code, the register index. -/

namespace Sys2Proof

/-- The low eight bits of a command word (30_encoding.md R60). -/
abbrev Opcode := BitVec 8

/-- A register index, three bits (20_memory.md R40). -/
abbrev Index := BitVec 3

/-- `v` lies in `[0, 2^width)` (00_scope.md R7). -/
abbrev fits (width : Nat) (v : Nat) : Prop := v < 2 ^ width

end Sys2Proof
end

