-- ==== Sys2Proof/Syntax.lean ====
section
/-! DEFINITION. The commands of the block: its "instructions" (00_scope.md R1). A command has no
register fields, immediates or mode bits; its operands are implicit (30_encoding.md R60, R65). -/

namespace Sys2Proof

/-- The six commands of 30_encoding.md R62, one per row of spec/opcode_table.json. -/
inductive Instr where
  /-- Test `OPA` for primality (40_number_theory.md R81). -/
  | isprime
  /-- Multiplicative inverse of `OPA` modulo `OPB` (40_number_theory.md R84). -/
  | modinv
  /-- Construct the field GF(`OPA`) (41_prime_field.md R101). -/
  | fcons
  /-- Field addition (41_prime_field.md R103). -/
  | fadd
  /-- Field subtraction (41_prime_field.md R104). -/
  | fsub
  /-- Field multiplication (41_prime_field.md R105). -/
  | fmul
  deriving DecidableEq, Repr

end Sys2Proof
end

