-- ==== Sys2Proof/Decode.lean ====
section
/-! DEFINITION. Command words to commands and back (30_encoding.md sections 1 to 3). A command word
is one whole W-bit value (R60); there are no bytes and no byte order (20_memory.md R46), so the
decoder reads the word's integer value. It is total: every value is a command or is rejected by
name. -/

namespace Sys2Proof

/-- The opcode `v[7:0]` (R60). -/
def opcodeOf (v : Nat) : Opcode := BitVec.ofNat 8 v

/-- The family field `v[7:4]` (R60). -/
def famOf (op : Opcode) : BitVec 4 := op.extractLsb' 4 4

/-- The function field `v[3:0]` (R60). -/
def fnOf (op : Opcode) : BitVec 4 := op.extractLsb' 0 4

/-- The field `v[W-1:8]`, which must be zero and is absent when `W = 8` (R60, R64). -/
def zeroFieldOf (v : Nat) : Nat := v / 256

/-- Why a command word is illegal. Both are reported as ILLCMD (60_exceptions.md R126). -/
inductive DecodeError where
  /-- A bit above bit 7 is set (R64). -/
  | upperBitsSet
  /-- The opcode is not one of the six of R62 (R63). -/
  | undefinedOpcode
  deriving DecidableEq, Repr

/-- The opcode map of R62, by family and function. -/
def decodeFields (fam fn : BitVec 4) : Except DecodeError Instr :=
  match fam.toNat, fn.toNat with
  | 0, 1 => .ok .isprime
  | 0, 2 => .ok .modinv
  | 1, 0 => .ok .fcons
  | 1, 1 => .ok .fadd
  | 1, 2 => .ok .fsub
  | 1, 3 => .ok .fmul
  | _, _ => .error .undefinedOpcode

/-- The decoder of R61, in the order of 60_exceptions.md R128: upper bits first, then the opcode. -/
def decode (v : Nat) : Except DecodeError Instr :=
  if zeroFieldOf v = 0 then decodeFields (famOf (opcodeOf v)) (fnOf (opcodeOf v))
  else .error .upperBitsSet

/-- The family of a command: 0 for the number-theory utilities, 1 for PrimeField (R60, R62). -/
def Instr.fam : Instr → BitVec 4
  | .isprime => 0#4
  | .modinv => 0#4
  | .fcons => 1#4
  | .fadd => 1#4
  | .fsub => 1#4
  | .fmul => 1#4

/-- The function of a command within its family (R62). -/
def Instr.fn : Instr → BitVec 4
  | .isprime => 1#4
  | .modinv => 2#4
  | .fcons => 0#4
  | .fadd => 1#4
  | .fsub => 2#4
  | .fmul => 3#4

/-- The command word `{zero, fam, fn}` (R60). -/
def encode (i : Instr) : Nat := (i.fam ++ i.fn).toNat

/-- The value of the table's word: its low `nbits` bits, every higher bit of the command word zero
(log 12). -/
def tableWord (nbits w : Nat) : Nat := w % 2 ^ nbits

/-- What the decoder reads from a table row's word (log 12). -/
def decodeTableWord (nbits w : Nat) : Option Instr := (decode (tableWord nbits w)).toOption

end Sys2Proof
end

