-- ==== Sys2Proof/Config.lean ====
section
/-! DEFINITION. What an implementation fixes: the operand width `W` (00_scope.md R5), the one open
parameter a rule depends on. `PORT_PROTOCOL`, the other open parameter, has no rule that depends on
it (20_memory.md R53) and no field here. The spec leaves no value free, so no constant is opaque. -/

namespace Sys2Proof

/-- The parameters of one build of the block. It is plain data carried by the state, so that the
model is the machine of every width at once (log 1). -/
structure Config where
  /-- The operand width `W`: every data register, operand and result is `W` bits (R5). -/
  width : Nat
  deriving DecidableEq, Repr

/-- The instance the spec recommends, `W = 32` (R5). -/
def Config.recommended : Config := { width := 32 }

end Sys2Proof
end

