-- ==== Sys2Proof/Machine/Transaction.lean ====
section
/-! DEFINITION. The transactions of the host port (00_scope.md R12): the only things that reach the
block (20_memory.md R40, R43, R44; 70_reset_and_hazards.md R140). -/

namespace Sys2Proof.Machine

/-- One transaction of the host port. A run is a sequence of them in one total order
(20_memory.md R50). -/
inductive Transaction where
  /-- `HostRead(i)`. -/
  | read (i : Index)
  /-- `HostWrite(i, v)`. -/
  | write (i : Index) (v : Nat)
  /-- `Reset`, a transaction like the others in the model (70_reset_and_hazards.md R140). -/
  | reset
  deriving DecidableEq, Repr

end Sys2Proof.Machine
end

