-- ==== Sys2Proof/Machine/State.lean ====
section
/-! DEFINITION. The state of the block: the six items of 10_state.md R20 ("There is no other
state"), with the configuration and the host's side of the port beside them as plain data. -/

namespace Sys2Proof.Machine

/-- The error codes of 60_exceptions.md R121, the value of `STATUS.ERR`. Codes 6 to 15 are never
produced (10_state.md R27), so the field is a six-valued type (log 8). -/
inductive ErrorCode where
  /-- 0: the command succeeded. -/
  | success
  /-- 1: FCONS of a number that is not a prime above 1 (R122). -/
  | invarg
  /-- 2: MODINV with no inverse (R123). -/
  | noinv
  /-- 3: MODINV with modulus 0 (R124). -/
  | badmod
  /-- 4: a field operation with no field constructed (R125). -/
  | nofield
  /-- 5: an illegal command word (R126). -/
  | illcmd
  deriving DecidableEq, Repr

/-- Why the machine stops. No state a run reaches raises one. -/
inductive Fault where
  /-- Raised by FADD, FSUB and FMUL in a state with `PVALID = 1` and `P = 0`, which the invariant of
  10_state.md R30 excludes: "`x mod 0` is never evaluated by any rule" (00_scope.md R9). Safe: the
  model stops where the spec gives no value (log 7). -/
  | modulusZero
  deriving DecidableEq, Repr

/-- Why a step has no meaning. -/
inductive Refusal where
  /-- Raised by an arm of `exec` that has no meaning yet; no arm is left. Safe. -/
  | notModelled (mnemonic : String)
  /-- Raised by a pending `HostWrite` of a value outside `[0, 2^W)`, which no host can present
  (00_scope.md R7; 93_implementation_defined.md U7: refuse at the boundary). Safe (log 6). -/
  | valueNotPresentable (v : Nat)
  deriving DecidableEq, Repr

/-- The six items of 10_state.md R20 (`opa` to `err`), and beside them three fields of the model's own:
the build, the host's transactions still to come, and what its reads returned. -/
structure State where
  /-- The build's parameters; no step changes them (log 1). -/
  cfg : Config
  /-- `OPA`, W bits: first operand (10_state.md R21). -/
  opa : Nat
  /-- `OPB`, W bits: second operand (R22). -/
  opb : Nat
  /-- `RES`, W bits: result of the last command that produced one (R23). -/
  res : Nat
  /-- `P`, W bits: the field modulus (R29). -/
  p : Nat
  /-- `PVALID`, 1 bit: a field has been constructed (R28). -/
  pvalid : Bool
  /-- `ERR`, 4 bits: the error code of the most recent command (R27). -/
  err : ErrorCode
  /-- The host's transactions not yet performed, oldest first (20_memory.md R50; log 3). -/
  pending : List Transaction
  /-- The values the host's reads returned, oldest first (00_scope.md R12; log 5). -/
  returned : List Nat
  deriving DecidableEq, Repr

/-- The reset state of a build (10_state.md R33), with nothing pending and nothing read. -/
def State.resetOf (c : Config) : State :=
  { cfg := c
    opa := 0
    opb := 0
    res := 0
    p := 0
    pvalid := false
    err := .success
    pending := []
    returned := [] }

/-- The machine right after reset (R33), of the recommended width (00_scope.md R5; log 1). -/
def State.reset : State := State.resetOf Config.recommended

end Sys2Proof.Machine
end

