-- ==== Sys2Proof/Machine/Flags.lean ====
section
/-! DEFINITION. The flags: `ERR` and `PVALID`, and the STATUS value made of them (10_state.md R26).
There are no carry, zero, sign or overflow flags (R27). -/

namespace Sys2Proof.Machine

/-- The numeric code of an error (60_exceptions.md R121). -/
def ErrorCode.code : ErrorCode → BitVec 4
  | .success => 0#4
  | .invarg => 1#4
  | .noinv => 2#4
  | .badmod => 3#4
  | .nofield => 4#4
  | .illcmd => 5#4

/-- The value of STATUS, `zext_W({PVALID, ERR[3:0]}) = 16*PVALID + ERR` (10_state.md R26): bits above
bit 4 are 0. -/
def statusWord (pvalid : Bool) (err : ErrorCode) : Nat := 16 * pvalid.toNat + err.code.toNat

end Sys2Proof.Machine
end

