-- ==== Sys2Proof/Machine/Operands.lean ====
section
/-! DEFINITION. The operands of 30_encoding.md R65: implicit registers, each read whole as an
unsigned integer, never sign-extended, scaled or shifted; and the floor modulo of 00_scope.md R9. -/

namespace Sys2Proof.Machine

/-- The first operand of every command: `n`, `a` or the candidate modulus (10_state.md R21). -/
def firstOperand (s : State) : Nat := s.opa

/-- The second operand of MODINV (its modulus), FADD, FSUB and FMUL (10_state.md R22). -/
def secondOperand (s : State) : Nat := s.opb

/-- The modulus of FADD, FSUB and FMUL (30_encoding.md R65). -/
def modulusOperand (s : State) : Nat := s.p

/-- `x mod m = x - m * floor(x / m)`, which for `m ≥ 1` lies in `[0, m)`, also when `x` is negative
(00_scope.md R9). No rule uses it with `m = 0`. -/
def floorMod (x : Int) (m : Nat) : Nat := (x - m * x.fdiv m).toNat

end Sys2Proof.Machine
end

