-- ==== Sys2Proof/Machine/Ops.lean ====
section
/-! DEFINITION. The named operations on the registers: the two ways a command ends (30_encoding.md
R61), the writes of the host (20_memory.md R44), what a read returns (R43), and Reset
(70_reset_and_hazards.md R141). The block has no memory (20_memory.md R42). -/

namespace Sys2Proof.Machine

/-- `raise E`, the block's whole exception entry: `ERR <- code(E)` and nothing else, with no control
transfer, no saved state and no mode change (60_exceptions.md R127). There is nothing to return
from and no operation of return (R129). -/
def State.raise (e : ErrorCode) (s : State) : State := { s with err := e }

/-- Success of a command that produces a value: `RES <- v`, `ERR <- 0` (10_state.md R23, R27). -/
def State.succeedWith (v : Nat) (s : State) : State := { s with res := v, err := .success }

/-- Success of FCONS: `P <- v`, `PVALID <- 1`, `ERR <- 0`; RES is not written
(41_prime_field.md R101). -/
def State.installField (v : Nat) (s : State) : State :=
  { s with p := v, pvalid := true, err := .success }

/-- `OPA <- v` (10_state.md R21). -/
def State.setOpa (v : Nat) (s : State) : State := { s with opa := v }

/-- `OPB <- v` (10_state.md R22). -/
def State.setOpb (v : Nat) (s : State) : State := { s with opb := v }

/-- The host's record of a value a read returned (log 5). -/
def State.record (v : Nat) (s : State) : State := { s with returned := s.returned ++ [v] }

/-- The host's transactions still to come (log 3). -/
def State.withPending (ts : List Transaction) (s : State) : State := { s with pending := ts }

/-- Reset: every piece of state takes its reset value (70_reset_and_hazards.md R141). The build and
the host's own records are no state of the block and stay (log 5). -/
def State.applyReset (s : State) : State :=
  { s with opa := 0, opb := 0, res := 0, p := 0, pvalid := false, err := .success }

/-- The value `HostRead(i)` returns (20_memory.md R41, R43). -/
def State.readIndex (i : Index) (s : State) : Nat :=
  match i.toNat with
  | 0 => s.opa
  | 1 => s.opb
  | 2 => 0
  | 3 => statusWord s.pvalid s.err
  | 4 => s.res
  | 5 => s.p
  | _ => 0

end Sys2Proof.Machine
end

