-- ==== Sys2Proof/Machine/NumberTheory.lean ====
section
/-! DEFINITION. ISPRIME and MODINV (40_number_theory.md). The loops of R80 and R82 are written on a
fuel argument that they never use up, so that they are structural (log 10). -/

namespace Sys2Proof.Machine

/-- The loop of R80: `while d * d <= n`, return 0 at the first divisor, 1 when no `d` is left. -/
def trialDivision (n : Nat) : Nat → Nat → Bool
  | 0, _ => true
  | fuel + 1, d =>
    if d * d ≤ n then
      if n % d = 0 then false else trialDivision n fuel (d + 1)
    else true

/-- `isprime(n)` (R80): trial division by 2, 3, ... up to the square root, inclusive. -/
def isprime (n : Nat) : Bool := if n ≤ 1 then false else trialDivision n n 2

/-- The loop of R82: the remainders `r0`, `r1` and the coefficients `t0`, `t1`, updated
simultaneously until `r1 = 0`. -/
def egcdLoop : Nat → Nat → Nat → Int → Int → Nat × Int
  | 0, r0, _, t0, _ => (r0, t0)
  | fuel + 1, r0, r1, t0, t1 =>
    if r1 = 0 then (r0, t0)
    else egcdLoop fuel r1 (r0 - r0 / r1 * r1) t1 (t0 - (r0 / r1 : Nat) * t1)

/-- `egcd(a, p)` (R82), the pair `(g, t)`. The remainder `r1` starts at `a` and strictly decreases,
so `a` iterations are enough. -/
def egcd (a p : Nat) : Nat × Int := egcdLoop a p a 0 1

/-- `modinv(a, p)` for `p ≥ 1` (R83): none is the failure "no inverse exists". -/
def modinv (a p : Nat) : Option Nat :=
  if 1 < (egcd a p).1 then none else some (floorMod (egcd a p).2 p)

/-- ISPRIME (R81): `RES <- zext_W(isprime(OPA))`, `ERR <- 0`. -/
def execIsprime (s : State) : Host.Outcome State Fault Refusal :=
  .next (s.succeedWith (isprime (firstOperand s)).toNat)

/-- MODINV (R84): BADMOD is tested before NOINV (60_exceptions.md R128). -/
def execModinv (s : State) : Host.Outcome State Fault Refusal :=
  if secondOperand s = 0 then .next (s.raise .badmod)
  else
    match modinv (firstOperand s) (secondOperand s) with
    | none => .next (s.raise .noinv)
    | some x => .next (s.succeedWith x)

end Sys2Proof.Machine
end

