-- ==== Sys2Proof/Machine/PrimeField.lean ====
section
/-! DEFINITION. FCONS, FADD, FSUB and FMUL (41_prime_field.md) on the one field context, the pair
(`P`, `PVALID`) (R100). -/

namespace Sys2Proof.Machine

/-- The common shape of FADD, FSUB and FMUL (R102 to R105): NOFIELD when no field is constructed,
else the exact integer `f OPA OPB` reduced by the floor modulo. `P = 0` with `PVALID = 1`, which
10_state.md R30 excludes, stops, since no rule evaluates `x mod 0` (00_scope.md R9; log 7). -/
def fieldOperation (f : Int → Int → Int) (s : State) : Host.Outcome State Fault Refusal :=
  if s.pvalid = false then .next (s.raise .nofield)
  else if modulusOperand s = 0 then .fault .modulusZero
  else .next (s.succeedWith (floorMod (f (firstOperand s) (secondOperand s)) (modulusOperand s)))

/-- FCONS (R101): a failed FCONS leaves `P` and `PVALID` as they were. -/
def execFcons (s : State) : Host.Outcome State Fault Refusal :=
  if firstOperand s ≤ 1 ∨ isprime (firstOperand s) = false then .next (s.raise .invarg)
  else .next (s.installField (firstOperand s))

/-- FADD (R103): `RES <- (OPA + OPB) mod P`; the sum is exact. -/
def execFadd (s : State) : Host.Outcome State Fault Refusal := fieldOperation (· + ·) s

/-- FSUB (R104): `RES <- (OPA - OPB) mod P`; the difference is exact and may be negative. -/
def execFsub (s : State) : Host.Outcome State Fault Refusal := fieldOperation (· - ·) s

/-- FMUL (R105): `RES <- (OPA * OPB) mod P`; the product is exact. -/
def execFmul (s : State) : Host.Outcome State Fault Refusal := fieldOperation (· * ·) s

end Sys2Proof.Machine
end

