-- ==== Sys2Proof/WellFormed.lean ====
section
/-! DEFINITION. What the spec admits of each kind of term. A command has no fields, so every term
of `Instr` is well formed and there is nothing to check of it (30_encoding.md R60); a configuration
and a transaction can be ill formed. -/

namespace Sys2Proof

/-- "an integer with `W ≥ 8`" (00_scope.md R5). -/
def Config.wellFormed (c : Config) : Bool := decide (8 ≤ c.width)

/-- A transaction the host can present to a build `c`: a written value lies in `[0, 2^W)`
(20_memory.md R44, 00_scope.md R7). An index is one of 0 to 7 by its type. -/
def Machine.Transaction.wellFormed (c : Config) : Machine.Transaction → Bool
  | .read _ => true
  | .write _ v => decide (fits c.width v)
  | .reset => true

end Sys2Proof
end

