-- ==== Sys2Proof/Machine/Port.lean ====
section
/-! DEFINITION. The host port (20_memory.md): what each transaction does, and the block's reaction
to the oldest pending one. -/

namespace Sys2Proof.Machine

/-- `Execute(v)` (30_encoding.md R61): run the decoded command, or raise ILLCMD. -/
def execute (v : Nat) (s : State) : Host.Outcome State Fault Refusal :=
  match decode v with
  | .ok i => exec i s
  | .error _ => .next (s.raise .illcmd)

/-- `HostRead(i)` (20_memory.md R43): the value goes to the host and no register changes. -/
def hostRead (i : Index) (s : State) : Host.Outcome State Fault Refusal :=
  .next (s.record (s.readIndex i))

/-- `HostWrite(i, v)` (20_memory.md R44): indices 3 to 7 ignore the write (R45). -/
def hostWrite (i : Index) (v : Nat) (s : State) : Host.Outcome State Fault Refusal :=
  match i.toNat with
  | 0 => .next (s.setOpa v)
  | 1 => .next (s.setOpb v)
  | 2 => execute v s
  | _ => .next s

/-- One transaction, one atomic step (00_scope.md R12). A value outside `[0, 2^W)` is not a value
the host can write (R7) and is refused at the boundary (93_implementation_defined.md U7; log 6). -/
def perform (t : Transaction) (s : State) : Host.Outcome State Fault Refusal :=
  match t with
  | .read i => hostRead i s
  | .write i v => if fits s.cfg.width v then hostWrite i v s else .refused (.valueNotPresentable v)
  | .reset => .next s.applyReset

/-- The block reacts to the oldest pending transaction (20_memory.md R50), and with none it is idle
with all state retained (60_exceptions.md R134; log 4). -/
def portStep (s : State) : Host.Outcome State Fault Refusal :=
  match s.pending with
  | [] => .next s
  | t :: rest => perform t (s.withPending rest)

/-- The state in which the host's very next transaction is the write of `v` to CMD, index 2
(10_state.md R25; log 12). -/
def placeCommandWrite (v : Nat) (s : State) : State :=
  s.withPending (.write 2#3 v :: s.pending)

end Sys2Proof.Machine
end

