-- ==== Sys2Proof/Machine/Step.lean ====
section
/-! DEFINITION. One step of the machine: one transaction of the host port (00_scope.md R12). The
block fetches nothing (10_state.md R24, 20_memory.md R52): a command runs when the host writes its
word to CMD. -/

namespace Sys2Proof.Machine

/-- One step: the oldest pending transaction, performed whole. -/
def step (s : State) : Host.Outcome State Fault Refusal := portStep s

/-- `s` with the write of a table row's word to CMD as the host's next transaction, so that the next
step runs exactly that command (log 12). -/
def State.withFetchWord (s : State) (nbits w : Nat) : State :=
  placeCommandWrite (tableWord nbits w) s

end Sys2Proof.Machine
end

