-- ==== Sys2Proof/Machine/Script.lean ====
section
/-! DEFINITION. The host's side of the port in the spec's own notation: the reference port signals
(20_memory.md R53), the script lines and pseudo-instructions (30_encoding.md R67, R68), and a reader
of the textual form. It is notation for sequences of transactions and adds no behaviour. -/

namespace Sys2Proof.Machine

/-- The reference inputs of the port (20_memory.md R53): reset, write enable, index, write data. -/
structure PortSignals where
  rst : Bool
  we : Bool
  sel : Index
  wdata : Nat
  deriving DecidableEq, Repr

/-- The encoding of a transaction as (`we`, `sel`, `wdata`), or `rst` asserted (30_encoding.md R67).
Signals the table leaves out are driven 0 (log 11). -/
def Transaction.signals : Transaction → PortSignals
  | .read i => { rst := false, we := false, sel := i, wdata := 0 }
  | .write i v => { rst := false, we := true, sel := i, wdata := v }
  | .reset => { rst := true, we := false, sel := 0#3, wdata := 0 }

/-- The transaction that signals carry: `rst` wins (log 11), and a read ignores `wdata`. -/
def PortSignals.transaction (g : PortSignals) : Transaction :=
  if g.rst then .reset else if g.we then .write g.sel g.wdata else .read g.sel

/-- One line of a script: the lines of 30_encoding.md R67 and the pseudo-instructions of R68. -/
inductive ScriptLine where
  /-- `wr <reg>, <value>` -/
  | wr (i : Index) (v : Nat)
  /-- `rd <reg>` -/
  | rd (i : Index)
  /-- A mnemonic: `HostWrite(2, opcode)`. -/
  | command (c : Instr)
  /-- `reset` -/
  | reset
  /-- `is_prime n` -/
  | callIsPrime (n : Nat)
  /-- `modinv a, p` -/
  | callModinv (a p : Nat)
  /-- `field p` -/
  | callField (p : Nat)
  /-- `add a, b` -/
  | callAdd (a b : Nat)
  /-- `sub a, b` -/
  | callSub (a b : Nat)
  /-- `mul a, b` -/
  | callMul (a b : Nat)
  deriving DecidableEq, Repr

/-- The write of a command's word to CMD (30_encoding.md R67). -/
def commandWrite (c : Instr) : Transaction := .write 2#3 (encode c)

/-- A two-operand call (30_encoding.md R68). -/
def expandTwoOperandCall (c : Instr) (a b : Nat) : List Transaction :=
  [.write 0#3 a, .write 1#3 b, commandWrite c, .read 3#3, .read 4#3]

/-- The transactions a line stands for (30_encoding.md R67, R68). -/
def ScriptLine.expand : ScriptLine → List Transaction
  | .wr i v => [.write i v]
  | .rd i => [.read i]
  | .command c => [commandWrite c]
  | .reset => [.reset]
  | .callIsPrime n => [.write 0#3 n, commandWrite .isprime, .read 3#3, .read 4#3]
  | .callModinv a p => expandTwoOperandCall .modinv a p
  | .callField p => [.write 0#3 p, commandWrite .fcons, .read 3#3]
  | .callAdd a b => expandTwoOperandCall .fadd a b
  | .callSub a b => expandTwoOperandCall .fsub a b
  | .callMul a b => expandTwoOperandCall .fmul a b

/-- The transactions of a script, line after line. -/
def expandScript (ls : List ScriptLine) : List Transaction := ls.flatMap ScriptLine.expand

/-- A line without its comment: `#` starts a comment (30_encoding.md R67). -/
def dropComment (cs : List Char) : List Char := cs.takeWhile (· != '#')

/-- The words of a line, a comma being a word of its own; `cur` is the word being read, reversed. -/
def tokens : List Char → List Char → List (List Char)
  | cur, [] => if cur.isEmpty then [] else [cur.reverse]
  | cur, c :: cs =>
    let done := if cur.isEmpty then [] else [cur.reverse]
    if c = ' ' ∨ c = '\t' then done ++ tokens [] cs
    else if c = ',' then done ++ [','] :: tokens [] cs
    else tokens (c :: cur) cs

/-- The value of a digit in a base up to 16. -/
def digitValue (base : Nat) (c : Char) : Option Nat :=
  let n := c.toNat
  let v := if 48 ≤ n ∧ n ≤ 57 then some (n - 48)
    else if 97 ≤ n ∧ n ≤ 102 then some (n - 87)
    else if 65 ≤ n ∧ n ≤ 70 then some (n - 55)
    else none
  v.filter (· < base)

/-- The digits of a number, most significant first, after `acc`. -/
def parseDigits (base : Nat) : Nat → List Char → Option Nat
  | acc, [] => some acc
  | acc, c :: cs =>
    match digitValue base c with
    | none => none
    | some d => parseDigits base (acc * base + d) cs

/-- A number: decimal, or hex with `0x` (30_encoding.md R67). -/
def parseNumber : List Char → Option Nat
  | [] => none
  | '0' :: 'x' :: c :: cs => parseDigits 16 0 (c :: cs)
  | c :: cs => parseDigits 10 0 (c :: cs)

/-- A register: one of the names of 20_memory.md R41, or an index 0 to 7 (30_encoding.md R67). -/
def parseRegister (cs : List Char) : Option Index :=
  if cs = ['O', 'P', 'A'] then some 0#3
  else if cs = ['O', 'P', 'B'] then some 1#3
  else if cs = ['C', 'M', 'D'] then some 2#3
  else if cs = ['S', 'T', 'A', 'T', 'U', 'S'] then some 3#3
  else if cs = ['R', 'E', 'S'] then some 4#3
  else if cs = ['P'] then some 5#3
  else
    match parseNumber cs with
    | some n => if n < 8 then some (BitVec.ofNat 3 n) else none
    | none => none

/-- A mnemonic of 30_encoding.md R62. -/
def parseMnemonic (cs : List Char) : Option Instr :=
  if cs = ['I', 'S', 'P', 'R', 'I', 'M', 'E'] then some .isprime
  else if cs = ['M', 'O', 'D', 'I', 'N', 'V'] then some .modinv
  else if cs = ['F', 'C', 'O', 'N', 'S'] then some .fcons
  else if cs = ['F', 'A', 'D', 'D'] then some .fadd
  else if cs = ['F', 'S', 'U', 'B'] then some .fsub
  else if cs = ['F', 'M', 'U', 'L'] then some .fmul
  else none

/-- A line of two words: a read or a one-operand call. -/
def parseOneOperandLine (kw arg : List Char) : Option ScriptLine :=
  if kw = ['r', 'd'] then (parseRegister arg).map .rd
  else if kw = ['i', 's', '_', 'p', 'r', 'i', 'm', 'e'] then (parseNumber arg).map .callIsPrime
  else if kw = ['f', 'i', 'e', 'l', 'd'] then (parseNumber arg).map .callField
  else none

/-- A line of two operands: a write or a two-operand call. -/
def parseTwoOperandLine (kw x y : List Char) : Option ScriptLine :=
  match parseNumber y with
  | none => none
  | some b =>
    if kw = ['w', 'r'] then (parseRegister x).map (fun i => .wr i b)
    else if kw = ['m', 'o', 'd', 'i', 'n', 'v'] then (parseNumber x).map (fun a => .callModinv a b)
    else if kw = ['a', 'd', 'd'] then (parseNumber x).map (fun a => .callAdd a b)
    else if kw = ['s', 'u', 'b'] then (parseNumber x).map (fun a => .callSub a b)
    else if kw = ['m', 'u', 'l'] then (parseNumber x).map (fun a => .callMul a b)
    else none

/-- The words of one line: an empty line or a comment stands for nothing. -/
def parseTokens : List (List Char) → Option (List ScriptLine)
  | [] => some []
  | [w] => if w = ['r', 'e', 's', 'e', 't'] then some [.reset]
      else (parseMnemonic w).map (fun c => [.command c])
  | [kw, arg] => (parseOneOperandLine kw arg).map (fun l => [l])
  | [kw, x, [','], y] => (parseTwoOperandLine kw x y).map (fun l => [l])
  | _ => none

/-- One line of text (30_encoding.md R67, R68); none is a line the notation does not have. -/
def parseLine (cs : List Char) : Option (List ScriptLine) := parseTokens (tokens [] (dropComment cs))

/-- The lines of a text; `cur` is the line being read, reversed. -/
def splitLines : List Char → List Char → List (List Char)
  | cur, [] => [cur.reverse]
  | cur, c :: cs => if c = '\n' then cur.reverse :: splitLines [] cs else splitLines (c :: cur) cs

/-- A script: one transaction or call per line (30_encoding.md R67). -/
def parseScript (text : List Char) : Option (List ScriptLine) :=
  ((splitLines [] text).mapM parseLine).map List.flatten

end Sys2Proof.Machine
end

