-- ==== Sys2Proof/Safety.lean ====
section
/-! DEFINITION. What claims about the block are stated in: the number-theoretic notions of
00_scope.md R10, the invariant of the reachable states, the frames of a transaction, and the result
of a command. -/

namespace Sys2Proof

/-- "An integer `n` is prime when `n ≥ 2` and no integer `d` with `2 ≤ d ≤ n-1` divides `n`"
(00_scope.md R10); `d` divides `n` when `n mod d = 0`. -/
abbrev IsPrimeNumber (n : Nat) : Prop := 2 ≤ n ∧ ∀ d, d < n → 2 ≤ d → n % d ≠ 0

/-- `x mod m = r` in the sense of 00_scope.md R9, for `m ≥ 1`: `r` lies in `[0, m)` and `x - r` is a
multiple of `m`. -/
def IsFloorMod (x : Int) (m r : Nat) : Prop := r < m ∧ ∃ q : Int, x = q * (m : Int) + (r : Int)

namespace Machine

/-- The width is one the spec admits and every register and returned value fits it (00_scope.md R5,
R7; 10_state.md R20; 20_memory.md R43). -/
abbrev State.InRange (s : State) : Prop :=
  s.cfg.wellFormed = true ∧ fits s.cfg.width s.opa ∧ fits s.cfg.width s.opb ∧
    fits s.cfg.width s.res ∧ fits s.cfg.width s.p ∧ ∀ v ∈ s.returned, fits s.cfg.width v

/-- The invariant of the field context (10_state.md R30): "either `PVALID = 0` and `P = 0`, or
`PVALID = 1` and `P` is prime". -/
abbrev State.FieldContextOk (s : State) : Prop :=
  (s.pvalid = false ∧ s.p = 0) ∨ (s.pvalid = true ∧ IsPrimeNumber s.p)

/-- The invariant of the machine. -/
abbrev State.Inv (s : State) : Prop := s.InRange ∧ s.FieldContextOk

/-- The safe steps: the machine goes on. -/
def State.StepsOn (s : State) : Prop := ∃ t, step s = .next t

/-- `k` steps, stopping at the first fault or refusal. -/
def runSteps : Nat → State → Host.Outcome State Fault Refusal
  | 0, s => .next s
  | k + 1, s =>
    match step s with
    | .next t => runSteps k t
    | .fault f => .fault f
    | .refused r => .refused r

/-- The result of command `i` on operands `a` and `b` in the field context of `s`: the value it
leaves in RES, and none when it raises an error or stops. -/
def commandResult (i : Instr) (a b : Nat) (s : State) : Option Nat :=
  match exec i { s with opa := a, opb := b } with
  | .next t => if t.err = .success then some t.res else none
  | .fault _ => none
  | .refused _ => none

end Machine

end Sys2Proof
end

