-- ==== Sys2Proof/Certificates/Slice0/Obligations.lean ====
section
/-! DEFINITION. The statements for the provers. Each docstring names the rule of spec/ it
formalises, or says which clause is the model's own and where it is logged. In every statement the
transactions still to come (`pending`) and the values read so far (`returned`) are the model's form
of the host (log 3, log 5). All hold for every width `W` of the configuration (log 1). -/

open Sys2Proof Sys2Proof.Machine

/-! ## Encoding -/

/-- 30_encoding.md section 2: the opcode map's six words, bit by bit. -/
def Obligations.TableWordsDecodeToTheirCommands : Prop :=
  decode 0b00000001 = .ok .isprime ∧ decode 0b00000010 = .ok .modinv ∧
  decode 0b00010000 = .ok .fcons ∧ decode 0b00010001 = .ok .fadd ∧
  decode 0b00010010 = .ok .fsub ∧ decode 0b00010011 = .ok .fmul

/-- 30_encoding.md sections 1 to 3: of all values, of any size, exactly the six words of the encoder
are commands, each of the command it encodes, so decode and encode agree in both directions. -/
def Obligations.DecoderAcceptsExactlyTheEncodedWords : Prop :=
  ∀ (v : Nat) (i : Instr), decode v = .ok i ↔ v = encode i

/-- R63, R64, R126: a write to CMD of any value that is not one of the six command words sets ERR to
ILLCMD, code 5, and changes nothing else. -/
def Obligations.IllegalCommandWordRaisesIllcmd : Prop :=
  ErrorCode.illcmd.code = 5#4 ∧
  ∀ (s : State) (v : Nat) (rest : List Transaction),
    s.pending = .write 2#3 v :: rest → fits s.cfg.width v →
    v ∉ [0x01, 0x02, 0x10, 0x11, 0x12, 0x13] →
    step s = .next { s with pending := rest, err := .illcmd }

/-- 30_encoding.md section 1 and 00_scope.md section 5: when the next transaction writes a command
word to CMD, the step is `exec` of the decoded command at the state without that transaction; at every
width the spec admits, every command's word can be so written; and `withFetchWord` places it (the
model's own operation, log 12). -/
def Obligations.StepRunsTheDecodedCommand : Prop :=
  (∀ (s : State) (v : Nat) (i : Instr) (rest : List Transaction),
    s.pending = .write 2#3 v :: rest → fits s.cfg.width v → decode v = .ok i →
    step s = exec i { s with pending := rest }) ∧
  (∀ (s : State) (i : Instr) (rest : List Transaction),
    s.pending = .write 2#3 (encode i) :: rest → 8 ≤ s.cfg.width →
    step s = exec i { s with pending := rest }) ∧
  ∀ (s : State) (i : Instr), 8 ≤ s.cfg.width → step (s.withFetchWord 8 (encode i)) = exec i s

/-- 20_memory.md section 2, 30_encoding.md section 5: the reference signals of a transaction carry
that transaction. The signals the spec leaves out are the model's choice (log 11). -/
def Obligations.PortSignalsCarryTheTransaction : Prop :=
  ∀ t : Transaction, t.signals.transaction = t

/-! ## The host port -/

/-- 60_exceptions.md section 4: between transactions the block is idle with all state retained. That
a step with nothing pending goes on unchanged is the model's form of this (log 4). -/
def Obligations.IdleStepRetainsAllState : Prop :=
  ∀ s : State, s.pending = [] → step s = .next s

/-- R43: any sequence of reads returns, index by index, the values of the register map, and changes
no state; so two reads of one index with only reads between them return the same value. -/
def Obligations.HostReadsReturnTheRegisterMapAndChangeNothing : Prop :=
  ∀ (s : State) (is : List Index) (rest : List Transaction),
    s.pending = is.map .read ++ rest →
    runSteps is.length s = .next { s with
      pending := rest
      returned := s.returned ++ is.map (fun i =>
        match i.toNat with
        | 0 => s.opa
        | 1 => s.opb
        | 2 => 0
        | 3 => 16 * s.pvalid.toNat + s.err.code.toNat
        | 4 => s.res
        | 5 => s.p
        | _ => 0) }

/-- R44: what a host write does at each index. At index 2 it executes the value: the command it
decodes to, or ILLCMD, and it never writes OPA or OPB. -/
def Obligations.HostWriteActsByIndex : Prop :=
  ∀ (s : State) (i : Index) (v : Nat) (rest : List Transaction),
    s.pending = .write i v :: rest → fits s.cfg.width v →
    (i.toNat = 0 → step s = .next { s with pending := rest, opa := v }) ∧
    (i.toNat = 1 → step s = .next { s with pending := rest, opb := v }) ∧
    (i.toNat = 2 →
      (∀ c, decode v = .ok c → step s = exec c { s with pending := rest }) ∧
      (∀ e, decode v = .error e → step s = .next { s with pending := rest, err := .illcmd }) ∧
      ∀ t, step s = .next t →
        t = { s with pending := rest, res := t.res, p := t.p, pvalid := t.pvalid, err := t.err }) ∧
    (3 ≤ i.toNat → step s = .next { s with pending := rest })

/-- R45: any number of writes to STATUS, RES, P and the reserved indices changes nothing and records
no error, and reads of CMD and of the reserved indices after them return 0. -/
def Obligations.ReadOnlyAndReservedWritesAreIgnored : Prop :=
  ∀ (s : State) (ws : List (Index × Nat)) (rest : List Transaction),
    (∀ w ∈ ws, 3 ≤ w.1.toNat ∧ fits s.cfg.width w.2) →
    s.pending = ws.map (fun w => .write w.1 w.2) ++ .read 2#3 :: .read 6#3 :: .read 7#3 :: rest →
    runSteps (ws.length + 3) s =
      .next { s with pending := rest, returned := s.returned ++ [0, 0, 0] }

/-- R26: the value STATUS returns, its fields and their reset values, and that neither reading nor
writing it changes a register. -/
def Obligations.StatusIsPvalidAboveErr : Prop :=
  State.reset.err.code = 0#4 ∧ State.reset.pvalid = false ∧
  ∀ (s : State) (rest : List Transaction),
    (s.pending = .read 3#3 :: rest →
      ∃ v, step s = .next { s with pending := rest, returned := s.returned ++ [v] } ∧
        v = (BitVec.ofBool s.pvalid ++ s.err.code).toNat ∧
        v = 16 * s.pvalid.toNat + s.err.code.toNat ∧ v % 16 = s.err.code.toNat ∧ v / 16 % 2 = s.pvalid.toNat ∧ v / 32 = 0) ∧
    ∀ v, s.pending = .write 3#3 v :: rest → fits s.cfg.width v →
      step s = .next { s with pending := rest }

/-- R33, R141: Reset, from any state, zeroes the six items, and reading all eight indices after it
returns 0 for every index. That the transactions still to come and the values read before stay is the
model's (log 5) and is not claimed here. -/
def Obligations.ResetZeroesEveryRegister : Prop :=
  ∀ (s : State) (rest : List Transaction), s.pending = .reset :: rest →
    ∃ t, step s = .next t ∧ t.opa = 0 ∧ t.opb = 0 ∧ t.res = 0 ∧ t.p = 0 ∧ t.pvalid = false ∧
      t.err = .success ∧ ErrorCode.success.code = 0#4 ∧
      ∀ i : Index, ∃ u, step { t with pending := [.read i] } = .next u ∧
        u.returned = t.returned ++ [0]

/-- 10_state.md section 6 (R33): the state a run starts from, at every width. Which width
`State.reset` has is the model's choice (log 1) and is not claimed here. -/
def Obligations.InitialStateHoldsTheResetValues : Prop :=
  ∀ c : Config,
    (State.resetOf c).opa = 0 ∧ (State.resetOf c).opb = 0 ∧ (State.resetOf c).res = 0 ∧
    (State.resetOf c).p = 0 ∧ (State.resetOf c).pvalid = false ∧
    (State.resetOf c).err.code = 0#4 ∧
    (∀ i : Index, (State.resetOf c).readIndex i = 0) ∧
    State.reset = State.resetOf State.reset.cfg

/-- 20_memory.md section 5 (R50's consistency sentences): a command sees the operands the latest
writes left, and reads of STATUS and RES right after the CMD write see that command's outcome. -/
def Obligations.TransactionsTakeEffectInOrder : Prop :=
  (∀ (s : State) (a b v : Nat) (rest : List Transaction),
    s.pending = .write 0#3 a :: .write 1#3 b :: .write 2#3 v :: rest →
    fits s.cfg.width a → fits s.cfg.width b →
    runSteps 3 s = step { s with opa := a, opb := b, pending := .write 2#3 v :: rest }) ∧
  ∀ (s u : State) (v : Nat) (rest : List Transaction),
    s.pending = .write 2#3 v :: .read 3#3 :: .read 4#3 :: rest → step s = .next u →
    runSteps 3 s = .next { u with
      pending := rest
      returned := s.returned ++ [16 * u.pvalid.toNat + u.err.code.toNat, u.res] }

/-- 30_encoding.md section 5 for the call's transactions and for when RES may be used, and
40_number_theory.md section 2 (R84) for what they return: the call `modinv a, p` of the script
notation, from any state of legal width and for operands that fit, runs to its end; STATUS shows
success exactly when `p ≥ 1` and `a` and `p` are coprime, and then the value read from RES is the
inverse. -/
def Obligations.ModinvCallReturnsStatusThenInverse : Prop :=
  ∀ (s : State) (a p : Nat) (rest : List Transaction),
    s.pending = (ScriptLine.callModinv a p).expand ++ rest → 8 ≤ s.cfg.width →
    fits s.cfg.width a → fits s.cfg.width p →
    ∃ t st x, runSteps 5 s = .next t ∧ t.pending = rest ∧ t.returned = s.returned ++ [st, x] ∧
      (st % 16 = 0 ↔ 0 < p ∧ Nat.gcd a p = 1) ∧
      (st % 16 = 0 → x < p ∧ a * x % p = 1 % p)

/-! ## What each command computes -/

/-- R81: ISPRIME completes in every state, with 1 in RES exactly when OPA is prime. -/
def Obligations.IsprimeWritesWhetherOpaIsPrime : Prop :=
  decode 0x01 = .ok .isprime ∧
  ∀ s : State,
    exec .isprime s =
      .next { s with res := if IsPrimeNumber s.opa then 1 else 0, err := .success }

/-- R84: MODINV completes in every state: BADMOD for modulus 0, NOINV for a common divisor, else the
one value below OPB that inverts OPA. -/
def Obligations.ModinvWritesTheInverseOrRaises : Prop :=
  decode 0x02 = .ok .modinv ∧
  ∀ s : State,
    (s.opb = 0 → exec .modinv s = .next { s with err := .badmod }) ∧
    (1 ≤ s.opb → 1 < Nat.gcd s.opa s.opb → exec .modinv s = .next { s with err := .noinv }) ∧
    (1 ≤ s.opb → Nat.gcd s.opa s.opb = 1 →
      ∃ x, exec .modinv s = .next { s with res := x, err := .success } ∧
        IsFloorMod (egcd s.opa s.opb).2 s.opb x ∧ x < s.opb ∧ s.opa * x % s.opb = 1 % s.opb ∧
        ∀ y, y < s.opb → s.opa * y % s.opb = 1 % s.opb → y = x)

/-- R101: FCONS completes in every state: it installs OPA when OPA is a prime, which is above 1, and
raises INVARG, leaving an earlier field as it was, when it is not. -/
def Obligations.FconsInstallsPrimesAndRefusesOthers : Prop :=
  decode 0x10 = .ok .fcons ∧
  ∀ s : State,
    (IsPrimeNumber s.opa →
      exec .fcons s = .next { s with p := s.opa, pvalid := true, err := .success }) ∧
    (s.opa ≤ 1 ∨ ¬ IsPrimeNumber s.opa → exec .fcons s = .next { s with err := .invarg })

/-- R103, R104, R105: with a field constructed (`P ≥ 1` is all that is used of R30), FADD, FSUB and
FMUL complete for every operand, in range or not, with the exact sum, difference or product reduced
by the floor modulo of R9; with none they raise NOFIELD. -/
def Obligations.FieldCommandsReduceTheExactResult : Prop :=
  decode 0x11 = .ok .fadd ∧ decode 0x12 = .ok .fsub ∧ decode 0x13 = .ok .fmul ∧
  (∀ s : State, s.pvalid = true → 1 ≤ s.p →
    (∃ r, exec .fadd s = .next { s with res := r, err := .success } ∧
      IsFloorMod ((s.opa : Int) + (s.opb : Int)) s.p r) ∧
    (∃ r, exec .fsub s = .next { s with res := r, err := .success } ∧
      IsFloorMod ((s.opa : Int) - (s.opb : Int)) s.p r) ∧
    (∃ r, exec .fmul s = .next { s with res := r, err := .success } ∧
      IsFloorMod ((s.opa : Int) * (s.opb : Int)) s.p r)) ∧
  ∀ s : State, s.pvalid = false →
    exec .fadd s = .next { s with err := .nofield } ∧
    exec .fsub s = .next { s with err := .nofield } ∧
    exec .fmul s = .next { s with err := .nofield }

/-- R102: without a field the three field commands raise NOFIELD and leave RES; with one, in a state
that meets the invariant, `P ≥ 2` and they have no error. -/
def Obligations.FieldCommandsFailOnlyWithoutAField : Prop :=
  ErrorCode.nofield.code = 4#4 ∧
  ∀ (s : State) (i : Instr), i ∈ [Instr.fadd, .fsub, .fmul] →
    (s.pvalid = false → exec i s = .next { s with err := .nofield }) ∧
    (s.Inv → s.pvalid = true →
      2 ≤ s.p ∧ ∃ r, exec i s = .next { s with res := r, err := .success })

/-- 40_number_theory.md section 2 (R82's closing sentences): the loop ends with the gcd and a
coefficient of `a`, for every `a` and every `p ≥ 1`. -/
def Obligations.EgcdReturnsGcdAndCoefficient : Prop :=
  ∀ a p : Nat, 1 ≤ p →
    (egcd a p).1 = Nat.gcd a p ∧ (p : Int) ∣ (egcd a p).2 * (a : Int) - ((egcd a p).1 : Int)

/-- 40_number_theory.md section 2 (the derived bound in R83): for `p ≥ 2`, `-p < t < p`, so one
addition of `p` normalises a negative coefficient, as the source says. -/
def Obligations.EgcdCoefficientStaysBelowTheModulus : Prop :=
  ∀ a p : Nat, 2 ≤ p →
    -(p : Int) < (egcd a p).2 ∧ (egcd a p).2 < (p : Int) ∧
    ∀ x, modinv a p = some x →
      (x : Int) = if 0 ≤ (egcd a p).2 then (egcd a p).2 else (egcd a p).2 + (p : Int)

/-! ## Errors -/

/-- R122 to R126: after a write to CMD, from any state that meets the invariant, the command is over
and each error code is reported exactly when its own cause holds. -/
def Obligations.EachErrorHasExactlyItsCause : Prop :=
  ErrorCode.invarg.code = 1#4 ∧ ErrorCode.noinv.code = 2#4 ∧ ErrorCode.badmod.code = 3#4 ∧
  ErrorCode.nofield.code = 4#4 ∧ ErrorCode.illcmd.code = 5#4 ∧
  ∀ (s : State) (v : Nat) (rest : List Transaction),
    s.Inv → s.pending = .write 2#3 v :: rest → fits s.cfg.width v →
    ∃ t, step s = .next t ∧
      (t.err = .invarg ↔ v = 0x10 ∧ (s.opa ≤ 1 ∨ ¬ IsPrimeNumber s.opa)) ∧
      (t.err = .noinv ↔ v = 0x02 ∧ 1 ≤ s.opb ∧ 1 < Nat.gcd s.opa s.opb) ∧
      (t.err = .badmod ↔ v = 0x02 ∧ s.opb = 0) ∧
      (t.err = .nofield ↔ (v = 0x11 ∨ v = 0x12 ∨ v = 0x13) ∧ s.pvalid = false) ∧
      (t.err = .illcmd ↔ v ∉ [0x01, 0x02, 0x10, 0x11, 0x12, 0x13])

/-- R127: a write to CMD that ends in an error changed ERR and nothing else; RES, P, PVALID, OPA and
OPB keep their values. -/
def Obligations.ErrorEntryChangesOnlyErr : Prop :=
  ∀ (s t : State) (v : Nat) (rest : List Transaction),
    s.pending = .write 2#3 v :: rest → step s = .next t → t.err ≠ .success →
    t = { s with pending := rest, err := t.err }

/-- R27: the codes are 0 to 5; only a command or Reset changes ERR; and what a command does, ERR
included, does not depend on the ERR it found, so ERR is written afresh by every command. -/
def Obligations.ErrIsWrittenByEveryCommandAndNothingElse : Prop :=
  (∀ e : ErrorCode, e.code.toNat ≤ 5) ∧
  (∀ s t : State, step s = .next t → t.err ≠ s.err →
    (∃ rest, s.pending = .reset :: rest) ∨ ∃ v rest, s.pending = .write 2#3 v :: rest) ∧
  (∀ (s : State) (v : Nat) (rest : List Transaction) (e : ErrorCode),
    s.pending = .write 2#3 v :: rest → fits s.cfg.width v → step { s with err := e } = step s) ∧
  ∀ (s t : State) (i : Instr), exec i s = .next t → t.err = .success ∨ t = { s with err := t.err }

/-! ## Frames and who writes what -/

/-- 30_encoding.md section 2, "writes on success": whatever the outcome, ISPRIME, MODINV, FADD, FSUB
and FMUL change at most RES and ERR, and FCONS at most P, PVALID and ERR. -/
def Obligations.CommandsWriteOnlyTheirDestinations : Prop :=
  ∀ s t : State,
    (∀ i : Instr, i ∈ [Instr.isprime, .modinv, .fadd, .fsub, .fmul] → exec i s = .next t →
      t = { s with res := t.res, err := t.err }) ∧
    (exec .fcons s = .next t → t = { s with p := t.p, pvalid := t.pvalid, err := t.err })

/-- 10_state.md section 2 (R21, R22): OPA and OPB change only by the host's own write to their index
or by Reset; no command and no other transaction writes them. -/
def Obligations.OperandsChangeOnlyByHostWriteOrReset : Prop :=
  ∀ s t : State, step s = .next t →
    (t.opa ≠ s.opa →
      (∃ rest, s.pending = .write 0#3 t.opa :: rest) ∨ ∃ rest, s.pending = .reset :: rest) ∧
    (t.opb ≠ s.opb →
      (∃ rest, s.pending = .write 1#3 t.opb :: rest) ∨ ∃ rest, s.pending = .reset :: rest)

/-- 10_state.md section 2 (R23): RES changes only by a command other than FCONS that succeeds, or by
Reset, which makes it 0. -/
def Obligations.ResChangesOnlyBySuccessfulResultCommand : Prop :=
  ∀ s t : State, step s = .next t → t.res ≠ s.res →
    (t.res = 0 ∧ ∃ rest, s.pending = .reset :: rest) ∨
    (t.err = .success ∧ ∃ v i rest, s.pending = .write 2#3 v :: rest ∧ decode v = .ok i ∧
      i ∈ [Instr.isprime, .modinv, .fadd, .fsub, .fmul])

/-- R28: PVALID is 0 after reset; only a successful FCONS sets it, a failed one leaves it; once set
only Reset clears it; the field commands read it. -/
def Obligations.PvalidIsSetByFconsAndClearedByReset : Prop :=
  State.reset.pvalid = false ∧
  (∀ (s t : State) (rest : List Transaction), s.pending = .reset :: rest → step s = .next t →
    t.pvalid = false) ∧
  (∀ s t : State, step s = .next t → s.pvalid = false → t.pvalid = true →
    IsPrimeNumber s.opa ∧ ∃ rest, s.pending = .write 2#3 0x10 :: rest) ∧
  (∀ s t : State, step s = .next t → s.pvalid = true → t.pvalid = false →
    ∃ rest, s.pending = .reset :: rest) ∧
  (∀ s t : State, exec .fcons s = .next t → t.err ≠ .success → t.pvalid = s.pvalid) ∧
  (∀ s t : State, exec .fcons s = .next t → t.err = .success → t.pvalid = true) ∧
  ∀ (s : State) (i : Instr), i ∈ [Instr.fadd, .fsub, .fmul] →
    (s.pvalid = false ↔ exec i s = .next { s with err := .nofield })

/-- 10_state.md section 4 (R29, R31): no host write reaches P; it changes only by a successful FCONS,
which copies OPA into it and so replaces the field as a whole, or by Reset. -/
def Obligations.ModulusChangesOnlyByFconsOrReset : Prop :=
  ∀ s t : State, step s = .next t → t.p ≠ s.p →
    (t.p = 0 ∧ ∃ rest, s.pending = .reset :: rest) ∨
    (t.p = s.opa ∧ t.pvalid = true ∧ t.err = .success ∧
      ∃ rest, s.pending = .write 2#3 0x10 :: rest)

/-- 10_state.md section 5 (R32): what a command does is a function of OPA, OPB, P, PVALID and the
command word alone. Two states that agree on these go on together; afterwards P, PVALID and ERR
agree, and RES agrees too or neither run wrote it. -/
def Obligations.CommandsDependOnlyOnOperandsAndField : Prop :=
  ∀ (s s' t : State) (i : Instr),
    s.opa = s'.opa → s.opb = s'.opb → s.p = s'.p → s.pvalid = s'.pvalid → exec i s = .next t →
    ∃ t', exec i s' = .next t' ∧ t'.p = t.p ∧ t'.pvalid = t.pvalid ∧ t'.err = t.err ∧
      (t'.res = t.res ∨ (t.res = s.res ∧ t'.res = s'.res)) ∧
      (t.err = .success → i ≠ .fcons → t'.res = t.res)

/-- Every step takes at most the oldest transaction, adds a returned value exactly when that was a
read, and leaves the build as it is. The model's form of the host (log 1, log 3, log 5). -/
def Obligations.StepTakesOneTransactionAndKeepsTheBuild : Prop :=
  ∀ s t : State, step s = .next t →
    t.cfg = s.cfg ∧ t.pending = s.pending.tail ∧
    ((∃ i rest, s.pending = .read i :: rest ∧ t.returned = s.returned ++ [s.readIndex i]) ∨
     ((∀ i rest, s.pending ≠ .read i :: rest) ∧ t.returned = s.returned))

/-! ## Whole machine -/

/-- 10_state.md section 4 (R30, a derived rule) and 00_scope.md section 3: the width stays legal,
every register fits it, and the field context is empty or holds a prime, after every step from every
state that meets this. -/
def Obligations.StepKeepsTheInvariant : Prop :=
  ∀ s t : State, s.Inv → step s = .next t → t.Inv

/-- 10_state.md sections 4 and 6: the invariant holds at reset, at every width the spec admits. -/
def Obligations.ResetMeetsTheInvariant : Prop :=
  State.reset.Inv ∧ ∀ c : Config, 8 ≤ c.width → (State.resetOf c).Inv

/-- 70_reset_and_hazards.md section 3 (R150, a derived rule): from every state that meets the
invariant a presentable transaction completes; no command hangs, faults or is refused. Two clauses
are the model's choice: that a step does not go on when the next transaction is a write no host can
present (log 6, DEDUCED; 93_implementation_defined.md U7, refuse at the boundary), and that a step
with nothing pending goes on (log 4, DEDUCED; 60_exceptions.md section 4). -/
def Obligations.EveryPresentableTransactionCompletes : Prop :=
  ∀ s : State, s.Inv →
    (s.StepsOn ↔ ∀ tr rest, s.pending = tr :: rest → tr.wellFormed s.cfg = true) ∧
    ∀ f, step s ≠ .fault f

/-- The model's own stops (log 6, log 7): a write of a value that does not fit is refused by name and
is the only refusal, and a field command with a constructed field of modulus 0, which no run reaches,
is the only fault. -/
def Obligations.StopsAreOnlyTheTwoNamed : Prop :=
  (∀ s r, step s = .refused r ↔
    ∃ i v rest, s.pending = .write i v :: rest ∧ ¬ fits s.cfg.width v ∧
      r = .valueNotPresentable v) ∧
  ∀ s f, step s = .fault f ↔
    f = .modulusZero ∧ s.pvalid = true ∧ s.p = 0 ∧
    ∃ v rest, s.pending = .write 2#3 v :: rest ∧ fits s.cfg.width v ∧ v ∈ [0x11, 0x12, 0x13]

/-! ## Laws of the commands -/

/-- 40_number_theory.md section 2 (R85, a derived rule), its five laws in order, for `p ≥ 1`. -/
def Obligations.ModinvLaws : Prop :=
  ∀ (s : State) (a p : Nat), 1 ≤ p →
    ((commandResult .modinv a p s).isSome = true ↔ Nat.gcd a p = 1) ∧
    (∀ x, commandResult .modinv a p s = some x → x < p ∧ a * x % p = 1 % p) ∧
    (∀ x, commandResult .modinv a p s = some x → commandResult .modinv x p s = some (a % p)) ∧
    (IsPrimeNumber p → a % p ≠ 0 → (commandResult .modinv a p s).isSome = true) ∧
    ∀ b s', b % p = a % p → commandResult .modinv b p s' = commandResult .modinv a p s

/-- 41_prime_field.md section 4 (R106, with its derived laws): range, and the laws of addition,
subtraction and multiplication in a constructed field, for all operands, in range or not. -/
def Obligations.FieldLaws : Prop :=
  ∀ (s : State) (a b : Nat), s.Inv → s.pvalid = true →
    (∃ x y z, commandResult .fadd a b s = some x ∧ commandResult .fsub a b s = some y ∧
      commandResult .fmul a b s = some z ∧ x < s.p ∧ y < s.p ∧ z < s.p ∧
      commandResult .fadd b a s = some x ∧ commandResult .fmul b a s = some z ∧
      commandResult .fsub x b s = some (a % s.p)) ∧
    commandResult .fadd a 0 s = some (a % s.p) ∧
    commandResult .fsub a 0 s = some (a % s.p) ∧
    commandResult .fmul a 1 s = some (a % s.p) ∧
    (a % s.p ≠ 0 →
      ∃ x, commandResult .modinv a s.p s = some x ∧ commandResult .fmul a x s = some 1)

/-- 41_prime_field.md section 4 (R110), with what MODINV and FMUL compute (40_number_theory.md
section 2, 41_prime_field.md section 3): a host divides by MODINV and then FMUL: the quotient exists
for every non-zero divisor, lies in the field, and multiplied by the divisor gives the dividend. -/
def Obligations.ModinvThenFmulDividesInTheField : Prop :=
  ∀ (s : State) (a b : Nat), s.Inv → s.pvalid = true → b % s.p ≠ 0 →
    ∃ x y, commandResult .modinv b s.p s = some x ∧ commandResult .fmul a x s = some y ∧
      y < s.p ∧ commandResult .fmul y b s = some (a % s.p)

/-- 41_prime_field.md section 4 (R107, derived from 00_scope.md R9): reducing the operands modulo P
first does not change the result of a field command. -/
def Obligations.FieldCommandsMayReduceOperandsFirst : Prop :=
  ∀ (s : State) (a b : Nat) (i : Instr), i ∈ [Instr.fadd, .fsub, .fmul] → 1 ≤ s.p →
    commandResult i (a % s.p) (b % s.p) s = commandResult i a b s
end

