-- ==== Sys2Proof/Laws/State.lean ====
section
/-! SUPPORT. What each named update of the state leaves in each field: one lemma per field per
update, so that no proof unfolds a record update. -/

namespace Sys2Proof.Machine

variable (s : State)

@[simp] theorem State.raise_cfg (e : ErrorCode) : (s.raise e).cfg = s.cfg := rfl
@[simp] theorem State.raise_opa (e : ErrorCode) : (s.raise e).opa = s.opa := rfl
@[simp] theorem State.raise_opb (e : ErrorCode) : (s.raise e).opb = s.opb := rfl
@[simp] theorem State.raise_res (e : ErrorCode) : (s.raise e).res = s.res := rfl
@[simp] theorem State.raise_p (e : ErrorCode) : (s.raise e).p = s.p := rfl
@[simp] theorem State.raise_pvalid (e : ErrorCode) : (s.raise e).pvalid = s.pvalid := rfl
@[simp] theorem State.raise_err (e : ErrorCode) : (s.raise e).err = e := rfl
@[simp] theorem State.raise_pending (e : ErrorCode) : (s.raise e).pending = s.pending := rfl
@[simp] theorem State.raise_returned (e : ErrorCode) : (s.raise e).returned = s.returned := rfl

@[simp] theorem State.succeedWith_cfg (v : Nat) : (s.succeedWith v).cfg = s.cfg := rfl
@[simp] theorem State.succeedWith_opa (v : Nat) : (s.succeedWith v).opa = s.opa := rfl
@[simp] theorem State.succeedWith_opb (v : Nat) : (s.succeedWith v).opb = s.opb := rfl
@[simp] theorem State.succeedWith_res (v : Nat) : (s.succeedWith v).res = v := rfl
@[simp] theorem State.succeedWith_p (v : Nat) : (s.succeedWith v).p = s.p := rfl
@[simp] theorem State.succeedWith_pvalid (v : Nat) : (s.succeedWith v).pvalid = s.pvalid := rfl
@[simp] theorem State.succeedWith_err (v : Nat) : (s.succeedWith v).err = .success := rfl
@[simp] theorem State.succeedWith_pending (v : Nat) : (s.succeedWith v).pending = s.pending := rfl
@[simp] theorem State.succeedWith_returned (v : Nat) : (s.succeedWith v).returned = s.returned := rfl

@[simp] theorem State.installField_cfg (v : Nat) : (s.installField v).cfg = s.cfg := rfl
@[simp] theorem State.installField_opa (v : Nat) : (s.installField v).opa = s.opa := rfl
@[simp] theorem State.installField_opb (v : Nat) : (s.installField v).opb = s.opb := rfl
@[simp] theorem State.installField_res (v : Nat) : (s.installField v).res = s.res := rfl
@[simp] theorem State.installField_p (v : Nat) : (s.installField v).p = v := rfl
@[simp] theorem State.installField_pvalid (v : Nat) : (s.installField v).pvalid = true := rfl
@[simp] theorem State.installField_err (v : Nat) : (s.installField v).err = .success := rfl
@[simp] theorem State.installField_pending (v : Nat) : (s.installField v).pending = s.pending := rfl
@[simp] theorem State.installField_returned (v : Nat) : (s.installField v).returned = s.returned := rfl

@[simp] theorem State.setOpa_cfg (v : Nat) : (s.setOpa v).cfg = s.cfg := rfl
@[simp] theorem State.setOpa_opa (v : Nat) : (s.setOpa v).opa = v := rfl
@[simp] theorem State.setOpa_opb (v : Nat) : (s.setOpa v).opb = s.opb := rfl
@[simp] theorem State.setOpa_res (v : Nat) : (s.setOpa v).res = s.res := rfl
@[simp] theorem State.setOpa_p (v : Nat) : (s.setOpa v).p = s.p := rfl
@[simp] theorem State.setOpa_pvalid (v : Nat) : (s.setOpa v).pvalid = s.pvalid := rfl
@[simp] theorem State.setOpa_err (v : Nat) : (s.setOpa v).err = s.err := rfl
@[simp] theorem State.setOpa_pending (v : Nat) : (s.setOpa v).pending = s.pending := rfl
@[simp] theorem State.setOpa_returned (v : Nat) : (s.setOpa v).returned = s.returned := rfl

@[simp] theorem State.setOpb_cfg (v : Nat) : (s.setOpb v).cfg = s.cfg := rfl
@[simp] theorem State.setOpb_opa (v : Nat) : (s.setOpb v).opa = s.opa := rfl
@[simp] theorem State.setOpb_opb (v : Nat) : (s.setOpb v).opb = v := rfl
@[simp] theorem State.setOpb_res (v : Nat) : (s.setOpb v).res = s.res := rfl
@[simp] theorem State.setOpb_p (v : Nat) : (s.setOpb v).p = s.p := rfl
@[simp] theorem State.setOpb_pvalid (v : Nat) : (s.setOpb v).pvalid = s.pvalid := rfl
@[simp] theorem State.setOpb_err (v : Nat) : (s.setOpb v).err = s.err := rfl
@[simp] theorem State.setOpb_pending (v : Nat) : (s.setOpb v).pending = s.pending := rfl
@[simp] theorem State.setOpb_returned (v : Nat) : (s.setOpb v).returned = s.returned := rfl

@[simp] theorem State.record_cfg (v : Nat) : (s.record v).cfg = s.cfg := rfl
@[simp] theorem State.record_opa (v : Nat) : (s.record v).opa = s.opa := rfl
@[simp] theorem State.record_opb (v : Nat) : (s.record v).opb = s.opb := rfl
@[simp] theorem State.record_res (v : Nat) : (s.record v).res = s.res := rfl
@[simp] theorem State.record_p (v : Nat) : (s.record v).p = s.p := rfl
@[simp] theorem State.record_pvalid (v : Nat) : (s.record v).pvalid = s.pvalid := rfl
@[simp] theorem State.record_err (v : Nat) : (s.record v).err = s.err := rfl
@[simp] theorem State.record_pending (v : Nat) : (s.record v).pending = s.pending := rfl
@[simp] theorem State.record_returned (v : Nat) : (s.record v).returned = s.returned ++ [v] := rfl

@[simp] theorem State.withPending_cfg (ts : List Transaction) : (s.withPending ts).cfg = s.cfg := rfl
@[simp] theorem State.withPending_opa (ts : List Transaction) : (s.withPending ts).opa = s.opa := rfl
@[simp] theorem State.withPending_opb (ts : List Transaction) : (s.withPending ts).opb = s.opb := rfl
@[simp] theorem State.withPending_res (ts : List Transaction) : (s.withPending ts).res = s.res := rfl
@[simp] theorem State.withPending_p (ts : List Transaction) : (s.withPending ts).p = s.p := rfl
@[simp] theorem State.withPending_pvalid (ts : List Transaction) : (s.withPending ts).pvalid = s.pvalid := rfl
@[simp] theorem State.withPending_err (ts : List Transaction) : (s.withPending ts).err = s.err := rfl
@[simp] theorem State.withPending_pending (ts : List Transaction) : (s.withPending ts).pending = ts := rfl
@[simp] theorem State.withPending_returned (ts : List Transaction) : (s.withPending ts).returned = s.returned := rfl

@[simp] theorem State.applyReset_cfg : s.applyReset.cfg = s.cfg := rfl
@[simp] theorem State.applyReset_opa : s.applyReset.opa = 0 := rfl
@[simp] theorem State.applyReset_opb : s.applyReset.opb = 0 := rfl
@[simp] theorem State.applyReset_res : s.applyReset.res = 0 := rfl
@[simp] theorem State.applyReset_p : s.applyReset.p = 0 := rfl
@[simp] theorem State.applyReset_pvalid : s.applyReset.pvalid = false := rfl
@[simp] theorem State.applyReset_err : s.applyReset.err = .success := rfl
@[simp] theorem State.applyReset_pending : s.applyReset.pending = s.pending := rfl
@[simp] theorem State.applyReset_returned : s.applyReset.returned = s.returned := rfl

end Sys2Proof.Machine
end

