-- ==== Sys2Proof/Laws/Ops.lean ====
section
/-! SUPPORT. One lemma per shared operation, saying once everything it can do; later proofs cite
these instead of unfolding the operations. -/

namespace Sys2Proof.Machine

/-- For `m ≥ 1` the floor modulo is the one of 00_scope.md R9. -/
theorem floorMod_isFloorMod (x : Int) {m : Nat} (hm : 0 < m) : IsFloorMod x m (floorMod x m) := by
  have hm' : (0 : Int) < m := by exact_mod_cast hm
  have h0 : 0 ≤ x.fmod m := Int.fmod_nonneg_of_pos x hm'
  have h1 : x.fmod m < m := Int.fmod_lt_of_pos x hm'
  have h2 : (m : Int) * x.fdiv m + x.fmod m = x := Int.mul_fdiv_add_fmod x m
  refine ⟨?_, x.fdiv m, ?_⟩ <;> unfold floorMod
  · omega
  · rw [mul_comm (x.fdiv m)]; omega

/-- A floor modulo is unique. -/
theorem isFloorMod_unique {x : Int} {m r r' : Nat} (h : IsFloorMod x m r) (h' : IsFloorMod x m r') :
    r = r' := by
  obtain ⟨hr, q, hq⟩ := h
  obtain ⟨hr', q', hq'⟩ := h'
  have e : ∀ (k : Int) (n : Nat), n < m → x = k * m + n → x.emod m = n := by
    intro k n hn hx
    rw [hx, Int.add_comm]
    show (_ % _ : Int) = _
    rw [Int.add_mul_emod_self_right]
    exact Int.emod_eq_of_lt (by omega) (by omega)
  have := (e q r hr hq).symm.trans (e q' r' hr' hq')
  exact_mod_cast this

/-- What FADD, FSUB and FMUL can do: one of three cases, told apart by PVALID and P. -/
theorem fieldOperation_cases (f : Int → Int → Int) (s : State) :
    (s.pvalid = false ∧ fieldOperation f s = .next (s.raise .nofield)) ∨
    (s.pvalid = true ∧ s.p = 0 ∧ fieldOperation f s = .fault .modulusZero) ∨
    (s.pvalid = true ∧ 0 < s.p ∧
      fieldOperation f s = .next (s.succeedWith (floorMod (f s.opa s.opb) s.p))) := by
  unfold fieldOperation modulusOperand firstOperand secondOperand
  cases hv : s.pvalid
  · exact .inl ⟨rfl, by simp⟩
  · by_cases hp : s.p = 0
    · exact .inr (.inl ⟨rfl, hp, by simp [hp]⟩)
    · exact .inr (.inr ⟨rfl, Nat.pos_of_ne_zero hp, by simp [hp]⟩)

/-- What MODINV can do. -/
theorem execModinv_cases (s : State) :
    (s.opb = 0 ∧ execModinv s = .next (s.raise .badmod)) ∨
    (s.opb ≠ 0 ∧ 1 < (egcd s.opa s.opb).1 ∧ execModinv s = .next (s.raise .noinv)) ∨
    (s.opb ≠ 0 ∧ ¬ 1 < (egcd s.opa s.opb).1 ∧
      execModinv s = .next (s.succeedWith (floorMod (egcd s.opa s.opb).2 s.opb))) := by
  unfold execModinv modinv firstOperand secondOperand
  by_cases hb : s.opb = 0
  · exact .inl ⟨hb, by simp [hb]⟩
  · by_cases hg : 1 < (egcd s.opa s.opb).1
    · exact .inr (.inl ⟨hb, hg, by simp [hb, hg]⟩)
    · exact .inr (.inr ⟨hb, hg, by simp [hb, hg]⟩)

/-- What FCONS can do. -/
theorem execFcons_cases (s : State) :
    (isprime s.opa = false ∧ execFcons s = .next (s.raise .invarg)) ∨
    (isprime s.opa = true ∧ execFcons s = .next (s.installField s.opa)) := by
  unfold execFcons firstOperand
  cases h : isprime s.opa
  · exact .inl ⟨rfl, by simp⟩
  · have h1 : ¬ s.opa ≤ 1 := by
      intro hle
      simp [isprime, hle] at h
    exact .inr ⟨rfl, by simp [h1]⟩

/-- The two ways a command ends (30_encoding.md R61): an error writes ERR alone, a success writes
the command's own registers. -/
theorem exec_next_cases {i : Instr} {s t : State} (h : exec i s = .next t) :
    (∃ e, e ≠ .success ∧ t = s.raise e) ∨
    (i ≠ .fcons ∧ ∃ v, t = s.succeedWith v) ∨
    (i = .fcons ∧ isprime s.opa = true ∧ t = s.installField s.opa) := by
  have field : ∀ f, fieldOperation f s = .next t →
      (∃ e, e ≠ .success ∧ t = s.raise e) ∨ ∃ v, t = s.succeedWith v := by
    intro f hf
    rcases fieldOperation_cases f s with ⟨-, e⟩ | ⟨-, -, e⟩ | ⟨-, -, e⟩ <;> rw [e] at hf
    · cases hf; exact .inl ⟨_, by decide, rfl⟩
    · cases hf
    · cases hf; exact .inr ⟨_, rfl⟩
  cases i with
  | isprime =>
    cases h
    exact .inr (.inl ⟨by decide, _, rfl⟩)
  | modinv =>
    change execModinv s = _ at h
    rcases execModinv_cases s with ⟨-, e⟩ | ⟨-, -, e⟩ | ⟨-, -, e⟩ <;> rw [e] at h <;> cases h
    · exact .inl ⟨_, by decide, rfl⟩
    · exact .inl ⟨_, by decide, rfl⟩
    · exact .inr (.inl ⟨by decide, _, rfl⟩)
  | fcons =>
    change execFcons s = _ at h
    rcases execFcons_cases s with ⟨-, e⟩ | ⟨hp, e⟩ <;> rw [e] at h <;> cases h
    · exact .inl ⟨_, by decide, rfl⟩
    · exact .inr (.inr ⟨rfl, hp, rfl⟩)
  | fadd => exact (field _ h).imp_right fun hv => .inl ⟨by decide, hv⟩
  | fsub => exact (field _ h).imp_right fun hv => .inl ⟨by decide, hv⟩
  | fmul => exact (field _ h).imp_right fun hv => .inl ⟨by decide, hv⟩

/-- What a write to CMD can do: the decoded command, or ILLCMD. -/
theorem execute_cases (v : Nat) (s : State) :
    (∃ i, decode v = .ok i ∧ execute v s = exec i s) ∨
    (∃ e, decode v = .error e ∧ execute v s = .next (s.raise .illcmd)) := by
  unfold execute
  cases h : decode v with
  | ok i => exact .inl ⟨i, rfl, rfl⟩
  | error e => exact .inr ⟨e, rfl, rfl⟩

/-- What a host write can do. -/
theorem hostWrite_cases (i : Index) (v : Nat) (s : State) :
    (i = 0#3 ∧ hostWrite i v s = .next (s.setOpa v)) ∨
    (i = 1#3 ∧ hostWrite i v s = .next (s.setOpb v)) ∨
    (i = 2#3 ∧ hostWrite i v s = execute v s) ∨
    (3 ≤ i.toNat ∧ hostWrite i v s = .next s) := by
  unfold hostWrite
  have : i = 0#3 ∨ i = 1#3 ∨ i = 2#3 ∨ i = 3#3 ∨ i = 4#3 ∨ i = 5#3 ∨ i = 6#3 ∨ i = 7#3 := by
    revert i; decide
  rcases this with rfl | rfl | rfl | rfl | rfl | rfl | rfl | rfl <;> simp

/-- The step with nothing pending. -/
theorem step_idle {s : State} (h : s.pending = []) : step s = .next s := by
  simp [step, portStep, h]

/-- The step performs the oldest pending transaction. -/
theorem step_pending {s : State} {t : Transaction} {rest : List Transaction}
    (h : s.pending = t :: rest) : step s = perform t (s.withPending rest) := by
  simp [step, portStep, h]

/-- Everything a step that goes on can have done. -/
theorem step_next_cases {s t : State} (h : step s = .next t) :
    (s.pending = [] ∧ t = s) ∨
    (∃ i rest, s.pending = .read i :: rest ∧ t = (s.withPending rest).record (s.readIndex i)) ∨
    (∃ i v rest, s.pending = .write i v :: rest ∧ fits s.cfg.width v ∧
      hostWrite i v (s.withPending rest) = .next t) ∨
    (∃ rest, s.pending = .reset :: rest ∧ t = (s.withPending rest).applyReset) := by
  cases hp : s.pending with
  | nil =>
    rw [step_idle hp] at h
    cases h
    exact .inl ⟨rfl, rfl⟩
  | cons tr rest =>
    rw [step_pending hp] at h
    cases tr with
    | read i =>
      cases h
      exact .inr (.inl ⟨i, rest, rfl, rfl⟩)
    | write i v =>
      by_cases hv : fits s.cfg.width v
      · simp only [perform, State.withPending_cfg, hv, if_true] at h
        exact .inr (.inr (.inl ⟨i, v, rest, rfl, hv, h⟩))
      · simp only [perform, State.withPending_cfg, hv, if_false] at h
        cases h
    | reset =>
      cases h
      exact .inr (.inr (.inr ⟨rest, rfl, rfl⟩))

end Sys2Proof.Machine
end

