-- ==== Sys2Proof/Laws/PerInstr.lean ====
section
/-! SUPPORT. Statements for all commands, made per constructor of `Instr`. -/

namespace Sys2Proof.Laws

namespace EncodeDecode

/-- Decoding the word of a command gives the command (30_encoding.md R61, R62). -/
def Statement (i : Instr) : Prop := decode (encode i) = .ok i

theorem isprime : Statement .isprime := rfl
theorem modinv : Statement .modinv := rfl
theorem fcons : Statement .fcons := rfl
theorem fadd : Statement .fadd := rfl
theorem fsub : Statement .fsub := rfl
theorem fmul : Statement .fmul := rfl

end EncodeDecode

namespace FormatC

/-- The fields of format C, read back from a command's word (30_encoding.md R60). -/
def Statement (i : Instr) : Prop :=
  famOf (opcodeOf (encode i)) = i.fam ∧ fnOf (opcodeOf (encode i)) = i.fn ∧ zeroFieldOf (encode i) = 0

theorem isprime : Statement .isprime := ⟨rfl, rfl, rfl⟩
theorem modinv : Statement .modinv := ⟨rfl, rfl, rfl⟩
theorem fcons : Statement .fcons := ⟨rfl, rfl, rfl⟩
theorem fadd : Statement .fadd := ⟨rfl, rfl, rfl⟩
theorem fsub : Statement .fsub := ⟨rfl, rfl, rfl⟩
theorem fmul : Statement .fmul := ⟨rfl, rfl, rfl⟩

end FormatC

end Sys2Proof.Laws
end

