-- ==== Sys2Proof/Tests/Slice0.lean ====
section
/-! SUPPORT. Tests: words and values are the spec's (30_encoding.md, 95_test_vectors.md), each on one
step of a small state; and for every statement with hypotheses a witness that they can be met. -/

namespace Sys2Proof.Tests

open Sys2Proof.Machine

/-! ## Helpers -/

/-- A state of width 8 with operands `a`, `b` and no field. -/
def bare (a b : Nat) : State := { State.resetOf ⟨8⟩ with opa := a, opb := b }

/-- A state of width 8 with operands `a`, `b` and the field GF(`p`). -/
def inField (p a b : Nat) : State := { bare a b with p := p, pvalid := true }

/-- The state with these transactions to come. -/
def host (ts : List Transaction) (s : State) : State := { s with pending := ts }

/-- RES and the error code that a command leaves. -/
def outcome (r : Host.Outcome State Fault Refusal) : Option (Nat × ErrorCode) :=
  match r with
  | .next t => some (t.res, t.err)
  | .fault _ => none
  | .refused _ => none

/-- P, PVALID and the error code that a command leaves. -/
def fieldOutcome (r : Host.Outcome State Fault Refusal) : Option (Nat × Bool × ErrorCode) :=
  match r with
  | .next t => some (t.p, t.pvalid, t.err)
  | .fault _ => none
  | .refused _ => none

/-! ## WellFormed: each check refuses an ill-formed term -/

theorem test_width_seven_refused : Config.wellFormed ⟨7⟩ = false := by decide
theorem test_width_eight_accepted : Config.wellFormed ⟨8⟩ = true := by decide
theorem test_write_of_256_refused_at_width_eight :
    Transaction.wellFormed ⟨8⟩ (.write 0#3 256) = false := by decide
theorem test_write_of_255_accepted_at_width_eight :
    Transaction.wellFormed ⟨8⟩ (.write 0#3 255) = true := by decide

/-! ## Decode: the words of 30_encoding.md R62 and the illegal ones of 95_test_vectors.md 2.5 -/

theorem test_decode_isprime : decode 0b00000001 = .ok .isprime := rfl
theorem test_decode_modinv : decode 0b00000010 = .ok .modinv := rfl
theorem test_decode_fcons : decode 0b00010000 = .ok .fcons := rfl
theorem test_decode_fadd : decode 0b00010001 = .ok .fadd := rfl
theorem test_decode_fsub : decode 0b00010010 = .ok .fsub := rfl
theorem test_decode_fmul : decode 0b00010011 = .ok .fmul := rfl
theorem test_decode_refuses_undefined_opcodes :
    [0x00, 0x03, 0x0F, 0x14, 0x20, 0x81, 0xFF].map decode =
      List.replicate 7 (.error .undefinedOpcode) := rfl
theorem test_decode_refuses_upper_bits :
    [0x101, 0x10000011].map decode = List.replicate 2 (.error .upperBitsSet) := rfl
theorem test_table_word_runs_first_after_reset :
    outcome (step (State.reset.withFetchWord 8 0x11)) = some (0, .nofield) := by decide
theorem test_table_word_decodes : decodeTableWord 8 0x13 = some .fmul := by decide

/-! ## ISPRIME, MODINV (95_test_vectors.md 2.1, 2.2) -/

theorem test_isprime_97 : outcome (execIsprime (bare 97 0)) = some (1, .success) := by decide
theorem test_isprime_square_121 : outcome (execIsprime (bare 121 0)) = some (0, .success) := by
  decide
theorem test_modinv_source_example : outcome (execModinv (bare 3 7)) = some (5, .success) := by
  decide
theorem test_modinv_zero_modulus_before_gcd : outcome (execModinv (bare 5 0)) = some (0, .badmod) := by
  decide
theorem test_egcd_trace_10_7 : egcd 10 7 = (1, -2) := by decide
theorem test_egcd_trace_17_97 : egcd 17 97 = (1, 40) := by decide
theorem test_egcd_trace_1_1 : egcd 1 1 = (1, 1) := by decide
theorem test_modinv_modulus_one : modinv 1 1 = some 0 := by decide

/-! ## The prime field (95_test_vectors.md 2.3, 2.4): no intermediate wraps at width 8 -/

theorem test_fcons_replaces : fieldOutcome (execFcons (inField 7 11 0)) = some (11, true, .success) := by
  decide
theorem test_fcons_failure_keeps_field :
    fieldOutcome (execFcons (inField 7 4 0)) = some (7, true, .invarg) := by decide
theorem test_fadd_sum_does_not_wrap :
    outcome (execFadd (inField 251 255 255)) = some (8, .success) := by decide
theorem test_fadd_without_field : outcome (execFadd (bare 3 5)) = some (0, .nofield) := by decide
theorem test_fsub_difference_does_not_wrap :
    outcome (execFsub (inField 251 0 255)) = some (247, .success) := by decide
theorem test_fsub_operand_order : outcome (execFsub (inField 7 3 5)) = some (5, .success) := by decide
theorem test_fmul_product_does_not_wrap :
    outcome (execFmul (inField 251 255 255)) = some (16, .success) := by decide
theorem test_fmul_out_of_range_operands :
    outcome (execFmul (inField 7 10 20)) = some (4, .success) := by decide

/-! ## The port (95_test_vectors.md 2.5, 2.6) -/

/-- The state of 95_test_vectors.md 2.5: OPA = 3, OPB = 5, RES = 1, P = 7, PVALID = 1, ERR = 0. -/
def portState : State := { inField 7 3 5 with res := 1 }

theorem test_reads_of_every_index :
    [0#3, 1#3, 2#3, 3#3, 4#3, 5#3, 6#3, 7#3].map portState.readIndex = [3, 5, 0, 16, 1, 7, 0, 0] := by
  decide
theorem test_write_to_p_ignored :
    step (host [.write 5#3 11] portState) = .next (host [] portState) := rfl
theorem test_write_of_largest_value :
    step (host [.write 0#3 255] portState) = .next { portState with opa := 255 } := rfl
theorem test_illegal_word_sets_err_only :
    step (host [.write 2#3 0] portState) = .next { portState with err := .illcmd } := rfl
theorem test_reset_then_nofield :
    outcome (runSteps 2 (host [.reset, .write 2#3 0x11] portState)) = some (0, .nofield) := by decide

/-! ## The script notation (30_encoding.md R67, R68) -/

theorem test_parse_write :
    parseLine "wr OPA, 0x07 # comment".toList = some [.wr 0#3 7] := by decide
theorem test_parse_program :
    (parseScript "mul 3, 5\nFCONS\n\nrd 7\nreset".toList).map expandScript =
      some [.write 0#3 3, .write 1#3 5, .write 2#3 0x13, .read 3#3, .read 4#3,
        .write 2#3 0x10, .read 7#3, .reset] := by decide
theorem test_parse_refuses_index_eight : parseLine "rd 8".toList = none := by decide
theorem test_signals_of_write :
    (Transaction.write 2#3 0x10).signals = { rst := false, we := true, sel := 2#3, wdata := 0x10 } := by
  decide

/-! ## Witnesses: the hypotheses of each statement can be met -/

theorem witness_illegal_words :
    (fits 8 0x00 ∧ 0x00 ∉ [0x01, 0x02, 0x10, 0x11, 0x12, 0x13]) ∧
    (fits 8 0xFF ∧ 0xFF ∉ [0x01, 0x02, 0x10, 0x11, 0x12, 0x13]) ∧
    (fits 16 0x101 ∧ 0x101 ∉ [0x01, 0x02, 0x10, 0x11, 0x12, 0x13]) ∧
    (host [.write 2#3 0xFF] portState).pending = .write 2#3 0xFF :: [] := by decide
theorem witness_step_runs :
    (host [.write 2#3 0x12] portState).pending = .write 2#3 0x12 :: [] ∧
    fits portState.cfg.width 0x12 ∧ (decode 0x12).toOption = some .fsub ∧
    encode .fsub = 0x12 ∧ 8 ≤ portState.cfg.width := by decide
theorem witness_idle : portState.pending = [] := rfl
theorem witness_reads :
    (host [.read 0#3, .read 7#3, .read 0#3, .reset] portState).pending =
      [0#3, 7#3, 0#3].map .read ++ [.reset] := by decide
theorem witness_host_write_indices :
    (host [.write 0#3 255] portState).pending = .write 0#3 255 :: [] ∧ fits 8 255 ∧
    (0#3 : Index).toNat = 0 ∧ (1#3 : Index).toNat = 1 ∧ (2#3 : Index).toNat = 2 ∧
    3 ≤ (3#3 : Index).toNat ∧ 3 ≤ (7#3 : Index).toNat ∧
    (decode 0x01).toOption = some .isprime ∧ (decode 0xFF).toOption = none := by decide
theorem witness_host_write_of_command_goes_on :
    ∃ t, step (host [.write 2#3 0x01] portState) = .next t := ⟨_, rfl⟩
theorem witness_ignored_writes :
    (∀ w ∈ [((3#3 : Index), 0), (7#3, 255)], 3 ≤ w.1.toNat ∧ fits 8 w.2) ∧
    (host [.write 3#3 0, .write 7#3 255, .read 2#3, .read 6#3, .read 7#3] portState).pending =
      [((3#3 : Index), 0), (7#3, 255)].map (fun w => .write w.1 w.2) ++
        .read 2#3 :: .read 6#3 :: .read 7#3 :: [] := by decide
theorem witness_status :
    (host [.read 3#3] portState).pending = .read 3#3 :: [] ∧
    (host [.write 3#3 0] portState).pending = .write 3#3 0 :: [] ∧ fits 8 0 := by decide
theorem witness_reset : (host [.reset] portState).pending = .reset :: [] := rfl
theorem witness_order_operands :
    (host [.write 0#3 255, .write 1#3 0, .write 2#3 2] portState).pending =
      .write 0#3 255 :: .write 1#3 0 :: .write 2#3 2 :: [] ∧
    fits portState.cfg.width 255 ∧ fits portState.cfg.width 0 := by decide
theorem witness_order_results :
    (host [.write 2#3 1, .read 3#3, .read 4#3] portState).pending =
      .write 2#3 1 :: .read 3#3 :: .read 4#3 :: [] ∧
    ∃ u, step (host [.write 2#3 1, .read 3#3, .read 4#3] portState) = .next u :=
  ⟨rfl, _, rfl⟩
theorem witness_modinv_call :
    (host (ScriptLine.callModinv 3 7).expand portState).pending =
      (ScriptLine.callModinv 3 7).expand ++ [] ∧
    8 ≤ portState.cfg.width ∧ fits 8 3 ∧ fits 8 7 ∧ 0 < 7 ∧ Nat.gcd 3 7 = 1 := by decide
theorem witness_modinv_cases :
    (bare 5 0).opb = 0 ∧ (1 ≤ (bare 2 4).opb ∧ 1 < Nat.gcd (bare 2 4).opa (bare 2 4).opb) ∧
    (1 ≤ (bare 0 1).opb ∧ Nat.gcd (bare 0 1).opa (bare 0 1).opb = 1) := by decide
theorem witness_fcons_cases :
    IsPrimeNumber (bare 2 0).opa ∧ (bare 1 0).opa ≤ 1 ∧ ¬ IsPrimeNumber (bare 4 0).opa := by decide
theorem witness_field_commands :
    ((inField 1 255 255).pvalid = true ∧ 1 ≤ (inField 1 255 255).p) ∧
    (bare 1 1).pvalid = false ∧ Instr.fadd ∈ [Instr.fadd, .fsub, .fmul] := by decide
theorem witness_field_invariant :
    (inField 7 3 5).Inv ∧ (inField 7 3 5).pvalid = true ∧ Instr.fmul ∈ [Instr.fadd, .fsub, .fmul] := by
  decide
theorem witness_egcd_moduli : 1 ≤ 1 ∧ 2 ≤ 2 ∧ modinv 1 2 = some 1 := by decide
theorem witness_error_causes :
    (host [.write 2#3 0x11] (inField 7 3 5)).Inv ∧ (host [.write 2#3 0x02] (bare 2 4)).Inv ∧
    (host [.write 2#3 0x02] (bare 2 4)).pending = .write 2#3 0x02 :: [] ∧ fits 8 0x02 := by decide
theorem witness_error_entry :
    ∃ t, step (host [.write 2#3 0x02] (bare 2 4)) = .next t ∧ t.err ≠ .success :=
  ⟨_, rfl, by decide⟩
theorem witness_err_changes :
    (∃ t, step (host [.write 2#3 0] portState) = .next t ∧ t.err ≠ portState.err) ∧
    (∃ t, step (host [.reset] { portState with err := .illcmd }) = .next t ∧ t.err ≠ .illcmd) ∧
    (∃ t, exec .modinv (bare 2 4) = .next t) :=
  ⟨⟨_, rfl, by decide⟩, ⟨_, rfl, by decide⟩, _, rfl⟩
theorem witness_destinations :
    (∃ t, exec .isprime portState = .next t) ∧ (∃ t, exec .modinv portState = .next t) ∧
    (∃ t, exec .fcons portState = .next t) ∧ (∃ t, exec .fadd portState = .next t) ∧
    (∃ t, exec .fsub portState = .next t) ∧ (∃ t, exec .fmul portState = .next t) :=
  ⟨⟨_, rfl⟩, ⟨_, rfl⟩, ⟨_, rfl⟩, ⟨_, rfl⟩, ⟨_, rfl⟩, ⟨_, rfl⟩⟩
theorem witness_operands_change :
    (∃ t, step (host [.write 0#3 4] portState) = .next t ∧ t.opa ≠ portState.opa) ∧
    (∃ t, step (host [.write 1#3 4] portState) = .next t ∧ t.opb ≠ portState.opb) ∧
    (∃ t, step (host [.reset] portState) = .next t ∧ t.opa ≠ portState.opa ∧
      t.opb ≠ portState.opb) :=
  ⟨⟨_, rfl, by decide⟩, ⟨_, rfl, by decide⟩, _, rfl, by decide, by decide⟩
theorem witness_res_changes :
    (∃ t, step (host [.write 2#3 0x12] portState) = .next t ∧ t.res ≠ portState.res) ∧
    (∃ t, step (host [.reset] portState) = .next t ∧ t.res ≠ portState.res) :=
  ⟨⟨_, rfl, by decide⟩, _, rfl, by decide⟩
theorem witness_pvalid_changes :
    (∃ t, step (host [.write 2#3 0x10] (bare 7 0)) = .next t ∧ t.pvalid = true) ∧
    (∃ t, step (host [.reset] portState) = .next t ∧ t.pvalid = false) ∧
    (∃ t, exec .fcons (bare 4 0) = .next t ∧ t.err ≠ .success) ∧
    (∃ t, exec .fcons (bare 7 0) = .next t ∧ t.err = .success) :=
  ⟨⟨_, rfl, by decide⟩, ⟨_, rfl, rfl⟩, ⟨_, rfl, by decide⟩, _, rfl, by decide⟩
theorem witness_modulus_changes :
    (∃ t, step (host [.write 2#3 0x10] (inField 7 11 0)) = .next t ∧ t.p ≠ 7) ∧
    (∃ t, step (host [.reset] (inField 7 11 0)) = .next t ∧ t.p ≠ 7) :=
  ⟨⟨_, rfl, by decide⟩, _, rfl, by decide⟩
theorem witness_agreeing_states :
    ∃ t, (inField 7 3 5).opa = portState.opa ∧ (inField 7 3 5).opb = portState.opb ∧
      (inField 7 3 5).p = portState.p ∧ (inField 7 3 5).pvalid = portState.pvalid ∧
      (inField 7 3 5).res ≠ portState.res ∧ exec .fsub (inField 7 3 5) = .next t :=
  ⟨_, rfl, rfl, rfl, rfl, by decide, rfl⟩
theorem witness_step_takes_one :
    (∃ t, step (host [.read 3#3, .reset] portState) = .next t) ∧
    (∃ t, step (host [.reset] portState) = .next t) ∧ ∃ t, step portState = .next t :=
  ⟨⟨_, rfl⟩, ⟨_, rfl⟩, _, rfl⟩
theorem witness_invariant_kept :
    (host [.write 2#3 0x13] portState).Inv ∧ ∃ t, step (host [.write 2#3 0x13] portState) = .next t :=
  ⟨by decide, _, rfl⟩
theorem witness_reset_widths : 8 ≤ (⟨8⟩ : Config).width ∧ 8 ≤ State.reset.cfg.width := by decide
theorem witness_completion :
    (host [.write 2#3 0x13] portState).Inv ∧
    Transaction.wellFormed portState.cfg (.write 2#3 0x13) = true := by decide
theorem witness_stops :
    step (host [.write 0#3 256] portState) = .refused (.valueNotPresentable 256) ∧
    ¬ fits portState.cfg.width 256 ∧
    step (host [.write 2#3 0x11] (inField 0 3 5)) = .fault .modulusZero ∧ fits 8 0x11 :=
  ⟨rfl, by decide, rfl, by decide⟩
theorem witness_modinv_laws :
    1 ≤ 1 ∧ commandResult .modinv 5 1 (bare 0 0) = some 0 ∧
    (1 ≤ 7 ∧ commandResult .modinv 3 7 (bare 0 0) = some 5 ∧ IsPrimeNumber 7 ∧ 3 % 7 ≠ 0 ∧
      10 % 7 = 3 % 7) := by decide
theorem witness_field_laws : (inField 7 3 5).Inv ∧ (inField 7 3 5).pvalid = true ∧ 3 % 7 ≠ 0 := by
  decide

end Sys2Proof.Tests
end

/-! # Proofs: the state of the block (10_state.md)

First the facts the later proofs need, in the order of the model: the decoder, primality, STATUS,
the commands, the port and the step. Then the obligations about the registers. -/

/-! ## The decoder -/

namespace Sys2Proof

/-- The opcode map of R62 read backwards: a command has its own two fields. -/
theorem fields_eq_of_decodeFields_eq_ok {fam fn : BitVec 4} {i : Instr}
    (h : decodeFields fam fn = .ok i) : fam = i.fam ∧ fn = i.fn := by
  unfold decodeFields at h
  split at h
  case h_7 => cases h
  all_goals
    cases h
    exact ⟨BitVec.eq_of_toNat_eq ‹_›, BitVec.eq_of_toNat_eq ‹_›⟩

theorem famOf_append_fnOf (op : Opcode) : famOf op ++ fnOf op = op := by
  unfold famOf fnOf
  exact (BitVec.extractLsb'_append_extractLsb'_eq_extractLsb' (by decide)).trans
    BitVec.extractLsb'_eq_self

/-- Only a command's own word decodes to it. -/
theorem eq_encode_of_decode_eq_ok {v : Nat} {i : Instr} (h : decode v = .ok i) :
    v = encode i := by
  unfold decode at h
  split at h
  case isTrue hzero =>
    obtain ⟨hfam, hfn⟩ := fields_eq_of_decodeFields_eq_ok h
    have hv : v < 256 := (Nat.div_eq_zero_iff_lt (by decide)).mp hzero
    calc v = (opcodeOf v).toNat := (Nat.mod_eq_of_lt hv).symm
      _ = (famOf (opcodeOf v) ++ fnOf (opcodeOf v)).toNat := by rw [famOf_append_fnOf]
      _ = encode i := by rw [hfam, hfn, encode]
  case isFalse => cases h

end Sys2Proof

/-! ## Primality -/

namespace Sys2Proof

/-- The primes of 00_scope.md R10 are Mathlib's. -/
theorem isPrimeNumber_iff_prime (n : Nat) : IsPrimeNumber n ↔ n.Prime := by
  simp only [IsPrimeNumber, Nat.prime_def_lt', Nat.dvd_iff_mod_eq_zero]
  exact and_congr_right fun _ => forall_congr' fun _ => forall_comm

namespace Machine

/-- The loop of R80 finds a divisor exactly when one lies between `d` and the square root; fuel for
every candidate up to `n` is enough. -/
theorem trialDivision_eq_true_iff {n : Nat} : ∀ {fuel d : Nat}, n < d + fuel →
    (trialDivision n fuel d = true ↔ ∀ e, d ≤ e → e * e ≤ n → ¬ e ∣ n)
  | 0, d, hfuel => by
    refine iff_of_true rfl fun e hde hen => ?_
    have : e ≤ e * e := Nat.le_mul_self e
    omega
  | fuel + 1, d, hfuel => by
    unfold trialDivision
    split
    case isFalse hroot =>
      exact iff_of_true rfl fun e hde hen =>
        absurd (le_trans (Nat.mul_self_le_mul_self hde) hen) hroot
    case isTrue hroot =>
      split
      case isTrue hdvd =>
        exact iff_of_false (by decide) fun h => h d le_rfl hroot (Nat.dvd_of_mod_eq_zero hdvd)
      case isFalse hdvd =>
        rw [trialDivision_eq_true_iff (by omega)]
        refine ⟨fun h e hde hen => ?_, fun h e hde => h e (by omega)⟩
        rcases Nat.eq_or_lt_of_le hde with rfl | hlt
        · exact fun hd => hdvd (Nat.mod_eq_zero_of_dvd hd)
        · exact h e hlt hen

/-- ISPRIME's test decides primality (R80, 00_scope.md R10). -/
theorem isprime_eq_true_iff (n : Nat) : isprime n = true ↔ IsPrimeNumber n := by
  rw [isPrimeNumber_iff_prime, Nat.prime_def_le_sqrt]
  unfold isprime
  split
  case isTrue hsmall => exact iff_of_false (by decide) fun h => absurd h.1 (by omega)
  case isFalse hlarge =>
    rw [trialDivision_eq_true_iff (by omega), and_iff_right (by omega)]
    simp only [Nat.le_sqrt]

/-! ## STATUS -/

theorem ErrorCode.code_toNat_le (e : ErrorCode) : e.code.toNat ≤ 5 := by
  cases e <;> decide

/-- STATUS is the concatenation of its two fields (R26). -/
theorem statusWord_eq_append (b : Bool) (e : ErrorCode) :
    statusWord b e = (BitVec.ofBool b ++ e.code).toNat := by
  rw [BitVec.toNat_append, BitVec.toNat_ofBool, ← Nat.shiftLeft_add_eq_or_of_lt e.code.isLt,
    Nat.shiftLeft_eq, statusWord, Nat.mul_comm]

/-- The fields of STATUS, read back. -/
theorem statusWord_fields (b : Bool) (e : ErrorCode) :
    statusWord b e % 16 = e.code.toNat ∧ statusWord b e / 16 % 2 = b.toNat ∧
      statusWord b e / 32 = 0 := by
  have hcode := e.code_toNat_le
  have hbit := b.toNat_le
  unfold statusWord
  omega

/-! ## The commands -/

@[simp] theorem State.raise_raise (s : State) (e e' : ErrorCode) :
    (s.raise e).raise e' = s.raise e' := rfl

/-- No command reads ERR, and every ending of a command writes it (R27): in each arm the operands
are projections that `raise` leaves alone, and the new ERR replaces the old one. -/
theorem exec_raise (i : Instr) (s : State) (e : ErrorCode) : exec i (s.raise e) = exec i s := by
  cases i <;> rfl

/-- FADD, FSUB and FMUL are the one field operation of R102 to R105. -/
theorem exec_eq_fieldOperation {i : Instr} (hi : i ∈ [Instr.fadd, .fsub, .fmul]) :
    ∃ f, ∀ s, exec i s = fieldOperation f s := by
  simp only [List.mem_cons, List.not_mem_nil, or_false] at hi
  rcases hi with rfl | rfl | rfl
  all_goals exact ⟨_, fun _ => rfl⟩

/-- A field operation answers NOFIELD exactly when no field is constructed (R102). -/
theorem fieldOperation_eq_nofield_iff (f : Int → Int → Int) (s : State) :
    fieldOperation f s = .next (s.raise .nofield) ↔ s.pvalid = false := by
  rcases fieldOperation_cases f s with ⟨hv, h⟩ | ⟨hv, -, h⟩ | ⟨hv, -, h⟩ <;> rw [h, hv]
  · exact iff_of_true rfl rfl
  · exact iff_of_false nofun nofun
  · refine iff_of_false (fun heq => ?_) nofun
    exact absurd (congrArg State.err (Host.Outcome.next.inj heq)) nofun

/-- What FCONS can do, told apart by the error it reports (R101). -/
theorem exec_fcons_next_cases {s t : State} (h : exec .fcons s = .next t) :
    (t.err ≠ .success ∧ t.pvalid = s.pvalid) ∨ (t.err = .success ∧ t.pvalid = true) := by
  rcases exec_next_cases h with ⟨e, he, rfl⟩ | ⟨hne, -⟩ | ⟨-, -, rfl⟩
  · exact .inl ⟨he, rfl⟩
  · exact absurd rfl hne
  · exact .inr ⟨rfl, rfl⟩

/-! ## The port and the step -/

theorem execute_raise (v : Nat) (s : State) (e : ErrorCode) :
    execute v (s.raise e) = execute v s := by
  simp only [execute, exec_raise, State.raise_raise]

/-- Everything a write to CMD that goes on can have done. -/
theorem execute_next_cases {v : Nat} {s t : State} (h : execute v s = .next t) :
    (∃ e, e ≠ .success ∧ t = s.raise e) ∨
    (∃ i r, decode v = .ok i ∧ i ≠ .fcons ∧ t = s.succeedWith r) ∨
    (v = encode .fcons ∧ isprime s.opa = true ∧ t = s.installField s.opa) := by
  rcases execute_cases v s with ⟨i, hdec, hexec⟩ | ⟨-, -, hill⟩
  · rcases exec_next_cases (hexec ▸ h) with herr | ⟨hne, r, ht⟩ | ⟨rfl, hp, ht⟩
    · exact .inl herr
    · exact .inr (.inl ⟨i, r, hdec, hne, ht⟩)
    · exact .inr (.inr ⟨eq_encode_of_decode_eq_ok hdec, hp, ht⟩)
  · exact .inl ⟨.illcmd, nofun, (Host.Outcome.next.inj (hill ▸ h)).symm⟩

/-- Everything a host write that goes on can have done (20_memory.md R44, R45). -/
theorem hostWrite_next_cases {i : Index} {v : Nat} {s t : State} (h : hostWrite i v s = .next t) :
    (i = 0#3 ∧ t = s.setOpa v) ∨ (i = 1#3 ∧ t = s.setOpb v) ∨
    (i = 2#3 ∧ execute v s = .next t) ∨ (3 ≤ i.toNat ∧ t = s) := by
  rcases hostWrite_cases i v s with ⟨hi, hw⟩ | ⟨hi, hw⟩ | ⟨hi, hw⟩ | ⟨hi, hw⟩ <;> rw [hw] at h
  · exact .inl ⟨hi, (Host.Outcome.next.inj h).symm⟩
  · exact .inr (.inl ⟨hi, (Host.Outcome.next.inj h).symm⟩)
  · exact .inr (.inr (.inl ⟨hi, h⟩))
  · exact .inr (.inr (.inr ⟨hi, (Host.Outcome.next.inj h).symm⟩))

section
variable {s : State} {rest : List Transaction}

theorem step_read {i : Index} (h : s.pending = .read i :: rest) :
    step s = .next ((s.withPending rest).record (s.readIndex i)) := step_pending h

theorem step_write {i : Index} {v : Nat} (h : s.pending = .write i v :: rest)
    (hv : fits s.cfg.width v) : step s = hostWrite i v (s.withPending rest) :=
  (step_pending h).trans (if_pos hv)

theorem step_reset (h : s.pending = .reset :: rest) :
    step s = .next (s.withPending rest).applyReset := step_pending h

end

/-- A read after Reset returns 0 at every index (R33). -/
theorem State.readIndex_applyReset (s : State) (i : Index) : s.applyReset.readIndex i = 0 := by
  unfold State.readIndex
  split <;> rfl

/-- Only Reset or a write to CMD writes ERR (R27). -/
theorem step_err_cases {s t : State} (h : step s = .next t) :
    t.err = s.err ∨ (∃ rest, s.pending = .reset :: rest) ∨
    ∃ v rest, s.pending = .write 2#3 v :: rest := by
  rcases step_next_cases h with
    ⟨-, rfl⟩ | ⟨i, rest, -, rfl⟩ | ⟨i, v, rest, hp, -, hw⟩ | ⟨rest, hp, -⟩
  · exact .inl rfl
  · exact .inl rfl
  · rcases hostWrite_next_cases hw with ⟨-, rfl⟩ | ⟨-, rfl⟩ | ⟨rfl, -⟩ | ⟨-, rfl⟩
    · exact .inl rfl
    · exact .inl rfl
    · exact .inr (.inr ⟨v, rest, hp⟩)
    · exact .inl rfl
  · exact .inr (.inl ⟨rest, hp⟩)

/-- What a step can do to PVALID: FCONS of a prime sets it, Reset clears it, and nothing else writes
it (R28). -/
theorem step_pvalid_cases {s t : State} (h : step s = .next t) :
    t.pvalid = s.pvalid ∨
    (t.pvalid = true ∧ isprime s.opa = true ∧
      ∃ rest, s.pending = .write 2#3 (encode .fcons) :: rest) ∨
    (t.pvalid = false ∧ ∃ rest, s.pending = .reset :: rest) := by
  rcases step_next_cases h with
    ⟨-, rfl⟩ | ⟨i, rest, -, rfl⟩ | ⟨i, v, rest, hp, -, hw⟩ | ⟨rest, hp, rfl⟩
  · exact .inl rfl
  · exact .inl rfl
  · rcases hostWrite_next_cases hw with ⟨-, rfl⟩ | ⟨-, rfl⟩ | ⟨rfl, hx⟩ | ⟨-, rfl⟩
    · exact .inl rfl
    · exact .inl rfl
    · rcases execute_next_cases hx with ⟨e, -, rfl⟩ | ⟨i, r, -, -, rfl⟩ | ⟨rfl, hprime, rfl⟩
      · exact .inl rfl
      · exact .inl rfl
      · exact .inr (.inl ⟨rfl, hprime, rest, hp⟩)
    · exact .inl rfl
  · exact .inr (.inr ⟨rfl, rest, hp⟩)

/-! ## The obligations -/

/-- Settles O10: the read records `statusWord`, whose fields are read back by arithmetic. -/
theorem statusIsPvalidAboveErr : Obligations.StatusIsPvalidAboveErr := by
  refine ⟨rfl, rfl, fun s rest => ⟨fun hp => ?_, fun v hp hv => step_write hp hv⟩⟩
  obtain ⟨herr, hpvalid, hhigh⟩ := statusWord_fields s.pvalid s.err
  exact ⟨statusWord s.pvalid s.err, step_read hp, statusWord_eq_append _ _, rfl,
    herr, hpvalid, hhigh⟩

/-- Settles O11: the step is `applyReset`, after which every index reads 0. -/
theorem resetZeroesEveryRegister : Obligations.ResetZeroesEveryRegister := by
  intro s rest hp
  refine ⟨_, step_reset hp, rfl, rfl, rfl, rfl, rfl, rfl, rfl, fun i => ⟨_, step_read rfl, ?_⟩⟩
  change _ ++ [((s.withPending [.read i]).applyReset).readIndex i] = _ ++ [0]
  rw [State.readIndex_applyReset]
  rfl

/-- Settles O24: only CMD writes and Reset reach ERR, and `exec` neither reads it nor leaves it
unwritten. -/
theorem errIsWrittenByEveryCommandAndNothingElse :
    Obligations.ErrIsWrittenByEveryCommandAndNothingElse := by
  refine ⟨ErrorCode.code_toNat_le, fun s t h hne => ?_, fun s v rest e hp hv => ?_,
    fun s t i h => ?_⟩
  · exact (step_err_cases h).resolve_left hne
  · calc step (s.raise e)
      _ = execute v ((s.withPending rest).raise e) := step_write (s := s.raise e) hp hv
      _ = execute v (s.withPending rest) := execute_raise ..
      _ = step s := (step_write hp hv).symm
  · rcases exec_next_cases h with ⟨e, -, rfl⟩ | ⟨-, v, rfl⟩ | ⟨-, -, rfl⟩
    · exact .inr rfl
    · exact .inl rfl
    · exact .inl rfl

/-- Settles O28, from what a step can do to PVALID and what FCONS and the field operation do. -/
theorem pvalidIsSetByFconsAndClearedByReset : Obligations.PvalidIsSetByFconsAndClearedByReset := by
  refine ⟨rfl, fun s t rest hp h => ?reset, fun s t h hclear hset => ?set,
    fun s t h hset hclear => ?clear, fun s t h herr => ?failed, fun s t h herr => ?succeeded,
    fun s i hi => ?field⟩
  case reset =>
    cases (step_reset hp).symm.trans h
    rfl
  case set =>
    rcases step_pvalid_cases h with heq | ⟨-, hprime, hp⟩ | ⟨hfalse, -⟩
    · exact absurd (hset.symm.trans (heq.trans hclear)) nofun
    · exact ⟨(isprime_eq_true_iff _).mp hprime, hp⟩
    · exact absurd (hset.symm.trans hfalse) nofun
  case clear =>
    rcases step_pvalid_cases h with heq | ⟨htrue, -⟩ | ⟨-, hp⟩
    · exact absurd (hclear.symm.trans (heq.trans hset)) nofun
    · exact absurd (hclear.symm.trans htrue) nofun
    · exact hp
  case failed =>
    rcases exec_fcons_next_cases h with ⟨-, hkept⟩ | ⟨hok, -⟩
    · exact hkept
    · exact absurd hok herr
  case succeeded =>
    rcases exec_fcons_next_cases h with ⟨hfail, -⟩ | ⟨-, hset⟩
    · exact absurd herr hfail
    · exact hset
  case field =>
    obtain ⟨f, hf⟩ := exec_eq_fieldOperation hi
    rw [hf]
    exact (fieldOperation_eq_nofield_iff f s).symm

end Machine

end Sys2Proof

/-! # Proofs: the host port (20_memory.md)

First runs of several steps and what each host transaction does at its index, then the
obligations about reads and writes. -/

namespace Sys2Proof.Machine

/-! ## Runs of several steps -/

theorem runSteps_succ {k : Nat} {s t : State} (h : step s = .next t) :
    runSteps (k + 1) s = runSteps k t := by
  rw [runSteps, h]

/-- A run that goes on continues from the state it reached. -/
theorem runSteps_add {m n : Nat} {s t : State} (h : runSteps m s = .next t) :
    runSteps (m + n) s = runSteps n t := by
  induction m generalizing s with
  | zero =>
    cases h
    rw [Nat.zero_add]
  | succ m ih =>
    rw [Nat.add_right_comm]
    cases hs : step s with
    | next u =>
      rw [runSteps_succ hs] at h ⊢
      exact ih h
    | fault f =>
      rw [runSteps, hs] at h
      cases h
    | refused r =>
      rw [runSteps, hs] at h
      cases h

/-! ## Reads -/

@[simp] theorem State.readIndex_withPending (s : State) (ts : List Transaction) (i : Index) :
    (s.withPending ts).readIndex i = s.readIndex i := rfl

/-- What a read returns does not depend on the reads before it (20_memory.md R43). -/
@[simp] theorem State.readIndex_record (s : State) (v : Nat) (i : Index) :
    (s.record v).readIndex i = s.readIndex i := rfl

/-- A sequence of reads returns the registers' values of the state it starts from: the first read
leaves a state in which every index reads the same. -/
theorem runSteps_reads {s : State} {is : List Index} {rest : List Transaction}
    (h : s.pending = is.map .read ++ rest) :
    runSteps is.length s =
      .next { s with pending := rest, returned := s.returned ++ is.map (s.readIndex ·) } := by
  induction is generalizing s with
  | nil =>
    obtain rfl : s.pending = rest := h
    rw [List.map_nil, List.append_nil]
    rfl
  | cons i is ih =>
    rw [List.length_cons, runSteps_succ (step_read h), ih rfl]
    simp

/-! ## Writes -/

/-- R45: a write to a read-only or reserved index is ignored. -/
theorem hostWrite_ignored {i : Index} (hi : 3 ≤ i.toNat) (v : Nat) (s : State) :
    hostWrite i v s = .next s := by
  rcases hostWrite_cases i v s with ⟨rfl, -⟩ | ⟨rfl, -⟩ | ⟨rfl, -⟩ | ⟨-, hw⟩
  · exact absurd hi (by decide)
  · exact absurd hi (by decide)
  · exact absurd hi (by decide)
  · exact hw

/-- R45 for any number of writes. -/
theorem runSteps_ignoredWrites {s : State} {ws : List (Index × Nat)} {rest : List Transaction}
    (hws : ∀ w ∈ ws, 3 ≤ w.1.toNat ∧ fits s.cfg.width w.2)
    (h : s.pending = ws.map (fun w => .write w.1 w.2) ++ rest) :
    runSteps ws.length s = .next (s.withPending rest) := by
  induction ws generalizing s with
  | nil =>
    obtain rfl : s.pending = rest := h
    rfl
  | cons w ws ih =>
    obtain ⟨⟨hi, hv⟩, htail⟩ := List.forall_mem_cons.mp hws
    have hstep := (step_write h hv).trans (hostWrite_ignored hi w.2 _)
    exact (runSteps_succ hstep).trans (ih htail rfl)

theorem execute_of_decode_ok {v : Nat} {c : Instr} (h : decode v = .ok c) (s : State) :
    execute v s = exec c s := by
  rw [execute, h]

theorem execute_of_decode_error {v : Nat} {e : DecodeError} (h : decode v = .error e)
    (s : State) : execute v s = .next (s.raise .illcmd) := by
  rw [execute, h]

/-- A write to CMD that goes on writes at most RES, P, PVALID and ERR (30_encoding.md R61). -/
theorem execute_frame {v : Nat} {s t : State} (h : execute v s = .next t) :
    t = { s with res := t.res, p := t.p, pvalid := t.pvalid, err := t.err } := by
  rcases execute_next_cases h with ⟨e, -, rfl⟩ | ⟨i, r, -, -, rfl⟩ | ⟨-, -, rfl⟩
  · rfl
  · rfl
  · rfl

/-! ## The obligations -/

/-- Settles O7: `readIndex` is the register map of R43. -/
theorem hostReadsReturnTheRegisterMapAndChangeNothing :
    Obligations.HostReadsReturnTheRegisterMapAndChangeNothing :=
  fun _ _ _ h => runSteps_reads h

/-- Settles O8: each clause fixes the index, and the step is the host write at it. -/
theorem hostWriteActsByIndex : Obligations.HostWriteActsByIndex := by
  intro s i v rest hp hv
  have hstep := step_write hp hv
  refine ⟨fun hi => ?opa, fun hi => ?opb, fun hi => ?cmd, fun hi => ?ignored⟩
  case opa =>
    obtain rfl : i = 0#3 := BitVec.eq_of_toNat_eq hi
    exact hstep
  case opb =>
    obtain rfl : i = 1#3 := BitVec.eq_of_toNat_eq hi
    exact hstep
  case cmd =>
    obtain rfl : i = 2#3 := BitVec.eq_of_toNat_eq hi
    have hexec : step s = execute v (s.withPending rest) := hstep
    exact ⟨fun c hc => hexec.trans (execute_of_decode_ok hc _),
      fun e he => hexec.trans (execute_of_decode_error he _),
      fun t ht => execute_frame (hexec.symm.trans ht)⟩
  case ignored => exact hstep.trans (hostWrite_ignored hi v _)

/-- Settles O9: the ignored writes leave the state as it was, and then indices 2, 6 and 7 each
read 0. -/
theorem readOnlyAndReservedWritesAreIgnored :
    Obligations.ReadOnlyAndReservedWritesAreIgnored := by
  intro s ws rest hws hp
  calc runSteps (ws.length + 3) s
    _ = runSteps 3 (s.withPending (.read 2#3 :: .read 6#3 :: .read 7#3 :: rest)) :=
      runSteps_add (runSteps_ignoredWrites hws hp)
    _ = .next { s with pending := rest, returned := s.returned ++ [0, 0, 0] } :=
      runSteps_reads (is := [2#3, 6#3, 7#3]) rfl

end Sys2Proof.Machine

/-! # Proofs: illegal command words (30_encoding.md) -/

namespace Sys2Proof.Machine

/-- The words of R62. -/
theorem encode_mem_commandWords (i : Instr) :
    encode i ∈ [0x01, 0x02, 0x10, 0x11, 0x12, 0x13] := by
  cases i <;> decide

/-- R63, R64: only a word of R62 decodes, so `Execute` of any other value raises ILLCMD. -/
theorem execute_of_not_mem_commandWords {v : Nat}
    (hv : v ∉ [0x01, 0x02, 0x10, 0x11, 0x12, 0x13]) (s : State) :
    execute v s = .next (s.raise .illcmd) := by
  rcases execute_cases v s with ⟨i, hdec, -⟩ | ⟨-, -, hill⟩
  · exact absurd (eq_encode_of_decode_eq_ok hdec ▸ encode_mem_commandWords i) hv
  · exact hill

/-- Settles O3: the step is `Execute` of a value that is no command's word. -/
theorem illegalCommandWordRaisesIllcmd : Obligations.IllegalCommandWordRaisesIllcmd := by
  refine ⟨rfl, fun s v rest hp hfit hv => ?_⟩
  calc step s
    _ = execute v (s.withPending rest) := step_write hp hfit
    _ = .next { s with pending := rest, err := .illcmd } := execute_of_not_mem_commandWords hv _

end Sys2Proof.Machine

/-! # Proofs: number theory (40_number_theory.md)

The bit ISPRIME writes, the gcd and the coefficient the loop of R82 ends with, what the coefficient
of a unit inverts, and then the obligations about ISPRIME and MODINV. -/

namespace Sys2Proof.Machine

/-! ## The bit ISPRIME writes -/

/-- The bit of R80 as ISPRIME writes it. -/
theorem isprime_toNat (n : Nat) : (isprime n).toNat = if IsPrimeNumber n then 1 else 0 := by
  split
  case isTrue hprime => rw [(isprime_eq_true_iff n).mpr hprime, Bool.toNat_true]
  case isFalse hnot =>
    rw [Bool.eq_false_iff.mpr (hnot ∘ (isprime_eq_true_iff n).mp), Bool.toNat_false]

/-! ## The extended Euclidean algorithm -/

theorem egcdLoop_of_zero (fuel r0 : Nat) (t0 t1 : Int) :
    egcdLoop fuel r0 0 t0 t1 = (r0, t0) := by
  cases fuel <;> rfl

/-- One iteration of R82; the new remainder is `r0 mod r1`. -/
theorem egcdLoop_of_ne_zero {r1 : Nat} (h : r1 ≠ 0) (fuel r0 : Nat) (t0 t1 : Int) :
    egcdLoop (fuel + 1) r0 r1 t0 t1 =
      egcdLoop fuel r1 (r0 % r1) t1 (t0 - (r0 / r1 : Nat) * t1) := by
  rw [egcdLoop, if_neg h, Nat.mod_eq_sub_div_mul]

/-- The remainder `r1` strictly decreases, so fuel for `r1` iterations reaches the gcd. -/
theorem egcdLoop_fst {fuel r0 r1 : Nat} {t0 t1 : Int} (hfuel : r1 ≤ fuel) :
    (egcdLoop fuel r0 r1 t0 t1).1 = Nat.gcd r0 r1 := by
  induction fuel generalizing r0 r1 t0 t1 with
  | zero =>
    obtain rfl : r1 = 0 := Nat.le_zero.mp hfuel
    exact (Nat.gcd_zero_right r0).symm
  | succ fuel ih =>
    rcases Nat.eq_zero_or_pos r1 with rfl | hpos
    · rw [egcdLoop_of_zero, Nat.gcd_zero_right]
    · have hlt : r0 % r1 < r1 := Nat.mod_lt r0 hpos
      rw [egcdLoop_of_ne_zero hpos.ne', ih (by omega)]
      calc Nat.gcd r1 (r0 % r1)
        _ = Nat.gcd (r0 % r1) r1 := Nat.gcd_comm _ _
        _ = Nat.gcd r1 r0 := (Nat.gcd_rec r1 r0).symm
        _ = Nat.gcd r0 r1 := Nat.gcd_comm _ _

/-- R82's loop invariant: each remainder is its coefficient's multiple of `a`, modulo `p`. -/
theorem egcdLoop_modEq {a p fuel r0 r1 : Nat} {t0 t1 : Int}
    (h0 : t0 * a ≡ r0 [ZMOD p]) (h1 : t1 * a ≡ r1 [ZMOD p]) :
    (egcdLoop fuel r0 r1 t0 t1).2 * a ≡ (egcdLoop fuel r0 r1 t0 t1).1 [ZMOD p] := by
  induction fuel generalizing r0 r1 t0 t1 with
  | zero => exact h0
  | succ fuel ih =>
    rcases eq_or_ne r1 0 with rfl | hne
    · rw [egcdLoop_of_zero]
      exact h0
    · rw [egcdLoop_of_ne_zero hne]
      refine ih h1 ?_
      calc (t0 - (r0 / r1 : Nat) * t1) * a
        _ = t0 * a - (r0 / r1 : Nat) * (t1 * a) := by ring
        _ ≡ r0 - (r0 / r1 : Nat) * r1 [ZMOD p] := h0.sub (h1.mul_left _)
        _ = (r0 % r1 : Nat) := by
          rw [Int.natCast_mod, Int.emod_def, Int.natCast_div, mul_comm]

/-- R82: the loop ends with the gcd. -/
theorem egcd_fst (a p : Nat) : (egcd a p).1 = Nat.gcd a p :=
  (egcdLoop_fst le_rfl).trans (Nat.gcd_comm p a)

/-- R82: the coefficient takes `a` to the gcd, modulo `p`. -/
theorem egcd_modEq (a p : Nat) : (egcd a p).2 * a ≡ (egcd a p).1 [ZMOD p] :=
  egcdLoop_modEq
    (by rw [zero_mul]; exact (Int.modEq_zero_iff_dvd.mpr dvd_rfl).symm)
    (by rw [one_mul])

/-! ## The inverse -/

theorem modEq_of_isFloorMod {x : Int} {m r : Nat} (h : IsFloorMod x m r) :
    x ≡ r [ZMOD m] := by
  obtain ⟨-, q, rfl⟩ := h
  simp [Int.ModEq]

/-- R83: reduced into `[0, p)`, the coefficient of a unit is its inverse. -/
theorem mul_mod_eq_one_mod_of_isFloorMod {a p x : Nat} (hgcd : Nat.gcd a p = 1)
    (hx : IsFloorMod (egcd a p).2 p x) : a * x % p = 1 % p := by
  refine Int.natCast_modEq_iff.mp ?_
  calc ((a * x : Nat) : Int)
    _ = x * a := by rw [Nat.cast_mul, mul_comm]
    _ ≡ (egcd a p).2 * a [ZMOD p] := (modEq_of_isFloorMod hx).symm.mul_right _
    _ ≡ (egcd a p).1 [ZMOD p] := egcd_modEq a p
    _ = (1 : Nat) := by rw [egcd_fst, hgcd]

/-- R83: the inverse in `[0, p)` is unique. -/
theorem eq_of_mul_mod_eq_one_mod {a p x y : Nat} (hgcd : Nat.gcd a p = 1) (hx : x < p)
    (hy : y < p) (hax : a * x % p = 1 % p) (hay : a * y % p = 1 % p) : y = x := by
  have hmod : a * y ≡ a * x [MOD p] := hay.trans hax.symm
  exact (hmod.cancel_left_of_coprime ((Nat.gcd_comm p a).trans hgcd)).eq_of_lt_of_lt hy hx

/-! ## The obligations -/

/-- Settles O15: ISPRIME writes the bit of R80. -/
theorem isprimeWritesWhetherOpaIsPrime : Obligations.IsprimeWritesWhetherOpaIsPrime := by
  refine ⟨rfl, fun s => ?_⟩
  rw [← isprime_toNat]
  rfl

/-- Settles O16: the three cases of MODINV are told apart by OPB and, once the loop's first result
is read as the gcd, by whether OPA is a unit. -/
theorem modinvWritesTheInverseOrRaises : Obligations.ModinvWritesTheInverseOrRaises := by
  refine ⟨rfl, fun s => ?_⟩
  rcases execModinv_cases s with ⟨hzero, hexec⟩ | ⟨hne, hgt, hexec⟩ | ⟨hne, hle, hexec⟩
  · exact ⟨fun _ => hexec, fun _ => by omega, fun _ => by omega⟩
  · rw [egcd_fst] at hgt
    exact ⟨fun _ => by omega, fun _ _ => hexec, fun _ _ => by omega⟩
  · rw [egcd_fst] at hle
    refine ⟨fun _ => by omega, fun _ _ => by omega, fun hpos hgcd => ?_⟩
    have hfloor := floorMod_isFloorMod (egcd s.opa s.opb).2 hpos
    have hinv := mul_mod_eq_one_mod_of_isFloorMod hgcd hfloor
    exact ⟨_, hexec, hfloor, hfloor.1, hinv,
      fun y hy hay => eq_of_mul_mod_eq_one_mod hgcd hfloor.1 hy hinv hay⟩

end Sys2Proof.Machine

/-! # Proofs: the prime field (41_prime_field.md)

What the field operation does with and without a field, and then the obligations about FCONS, FADD,
FSUB and FMUL. -/

namespace Sys2Proof.Machine

/-! ## The field operation -/

section
variable {s : State}

/-- With a field constructed, a field operation writes the exact integer reduced by the floor modulo
(R103 to R105). -/
theorem fieldOperation_of_pvalid (f : Int → Int → Int) (hv : s.pvalid = true) (hp : 1 ≤ s.p) :
    ∃ r, fieldOperation f s = .next (s.succeedWith r) ∧ IsFloorMod (f s.opa s.opb) s.p r := by
  rcases fieldOperation_cases f s with ⟨hnone, -⟩ | ⟨-, hzero, -⟩ | ⟨-, hpos, hnext⟩
  · exact absurd (hv.symm.trans hnone) nofun
  · omega
  · exact ⟨_, hnext, floorMod_isFloorMod _ hpos⟩

/-- Without a field, a field operation raises NOFIELD (R102). -/
theorem fieldOperation_of_not_pvalid (f : Int → Int → Int) (hv : s.pvalid = false) :
    fieldOperation f s = .next (s.raise .nofield) :=
  (fieldOperation_eq_nofield_iff f s).mpr hv

/-- A constructed field has a prime modulus (10_state.md R30). -/
theorem State.Inv.isPrimeNumber_p (hinv : s.Inv) (hv : s.pvalid = true) : IsPrimeNumber s.p := by
  obtain ⟨-, ⟨hnone, -⟩ | ⟨-, hprime⟩⟩ := hinv
  · exact absurd (hv.symm.trans hnone) nofun
  · exact hprime

end

/-! ## The obligations -/

/-- Settles O17: the two cases of FCONS are told apart by ISPRIME's test, which decides primality. -/
theorem fconsInstallsPrimesAndRefusesOthers : Obligations.FconsInstallsPrimesAndRefusesOthers := by
  refine ⟨rfl, fun s => ?_⟩
  have hiff := isprime_eq_true_iff s.opa
  rcases execFcons_cases s with ⟨htest, hexec⟩ | ⟨htest, hexec⟩
  · have hnot : ¬ IsPrimeNumber s.opa := fun hprime =>
      absurd (htest.symm.trans (hiff.mpr hprime)) nofun
    exact ⟨fun hprime => absurd hprime hnot, fun _ => hexec⟩
  · have hprime : IsPrimeNumber s.opa := hiff.mp htest
    refine ⟨fun _ => hexec, ?_⟩
    rintro (hsmall | hnot)
    · exact absurd hprime.1 (by omega)
    · exact absurd hprime hnot

/-- Settles O18: each of the three commands is the field operation of its exact operator. -/
theorem fieldCommandsReduceTheExactResult : Obligations.FieldCommandsReduceTheExactResult := by
  refine ⟨rfl, rfl, rfl, fun s hv hp => ⟨?_, ?_, ?_⟩, fun s hv => ⟨?_, ?_, ?_⟩⟩
  · exact fieldOperation_of_pvalid (· + ·) hv hp
  · exact fieldOperation_of_pvalid (· - ·) hv hp
  · exact fieldOperation_of_pvalid (· * ·) hv hp
  · exact fieldOperation_of_not_pvalid (· + ·) hv
  · exact fieldOperation_of_not_pvalid (· - ·) hv
  · exact fieldOperation_of_not_pvalid (· * ·) hv

/-- Settles O19: the invariant makes the modulus of a constructed field a prime, so the field
operation succeeds. -/
theorem fieldCommandsFailOnlyWithoutAField : Obligations.FieldCommandsFailOnlyWithoutAField := by
  refine ⟨rfl, fun s i hi => ?_⟩
  obtain ⟨f, hf⟩ := exec_eq_fieldOperation hi
  rw [hf]
  refine ⟨fun hv => fieldOperation_of_not_pvalid f hv, fun hinv hv => ?_⟩
  have htwo : 2 ≤ s.p := (hinv.isPrimeNumber_p hv).1
  obtain ⟨r, hnext, -⟩ := fieldOperation_of_pvalid f hv (by omega)
  exact ⟨htwo, r, hnext⟩

end Sys2Proof.Machine

/-! # Proofs: exceptions (60_exceptions.md)

The error a command reports as a function of the state it finds, the cause of each of its values,
and then the obligations about errors. -/

namespace Sys2Proof.Machine

/-! ## Writes to CMD -/

section
variable {s : State} {v : Nat} {rest : List Transaction}

theorem step_commandWrite (hp : s.pending = .write 2#3 v :: rest) (hv : fits s.cfg.width v) :
    step s = execute v (s.withPending rest) := step_write hp hv

/-- A write to CMD that goes on was presentable and is `Execute` of its value. -/
theorem execute_of_step_commandWrite {t : State} (hp : s.pending = .write 2#3 v :: rest)
    (h : step s = .next t) : execute v (s.withPending rest) = .next t := by
  by_cases hv : fits s.cfg.width v
  · exact (step_commandWrite hp hv).symm.trans h
  · have hrefused : step s = .refused (.valueNotPresentable v) :=
      (step_pending hp).trans (if_neg hv)
    exact absurd (hrefused.symm.trans h) nofun

end

/-- Each word of R62 is the word of a command. -/
theorem exists_encode_of_mem_commandWords {v : Nat}
    (hv : v ∈ [0x01, 0x02, 0x10, 0x11, 0x12, 0x13]) : ∃ i, v = encode i := by
  simp only [List.mem_cons, List.not_mem_nil, or_false] at hv
  rcases hv with rfl | rfl | rfl | rfl | rfl | rfl
  · exact ⟨.isprime, rfl⟩
  · exact ⟨.modinv, rfl⟩
  · exact ⟨.fcons, rfl⟩
  · exact ⟨.fadd, rfl⟩
  · exact ⟨.fsub, rfl⟩
  · exact ⟨.fmul, rfl⟩

theorem execute_encode (i : Instr) (s : State) : execute (encode i) s = exec i s := by
  cases i <;> rfl

/-! ## The error a command reports -/

/-- The value of ERR after a command, from the state it finds (60_exceptions.md R122 to R125, in the
order of R128). -/
def commandError (s : State) : Instr → ErrorCode
  | .isprime => .success
  | .modinv =>
    if s.opb = 0 then .badmod else if 1 < Nat.gcd s.opa s.opb then .noinv else .success
  | .fcons => if IsPrimeNumber s.opa then .success else .invarg
  | .fadd | .fsub | .fmul => if s.pvalid = false then .nofield else .success

/-- The outcome goes on and leaves `e` in ERR. -/
def LeavesErr (r : Host.Outcome State Fault Refusal) (e : ErrorCode) : Prop :=
  ∃ t, r = .next t ∧ t.err = e

theorem exec_modinv_leavesErr (s : State) :
    LeavesErr (exec .modinv s) (commandError s .modinv) := by
  obtain ⟨-, hcases⟩ := modinvWritesTheInverseOrRaises
  obtain ⟨hbadmod, hnoinv, hinverse⟩ := hcases s
  simp only [commandError]
  split_ifs with hzero hgcd
  · exact ⟨_, hbadmod hzero, rfl⟩
  · exact ⟨_, hnoinv (by omega) hgcd, rfl⟩
  · have hpos : 0 < Nat.gcd s.opa s.opb := Nat.gcd_pos_of_pos_right _ (by omega)
    obtain ⟨x, hexec, -⟩ := hinverse (by omega) (by omega)
    exact ⟨_, hexec, rfl⟩

theorem exec_fcons_leavesErr (s : State) :
    LeavesErr (exec .fcons s) (commandError s .fcons) := by
  obtain ⟨-, hcases⟩ := fconsInstallsPrimesAndRefusesOthers
  obtain ⟨hprime, hother⟩ := hcases s
  simp only [commandError]
  split_ifs with h
  · exact ⟨_, hprime h, rfl⟩
  · exact ⟨_, hother (.inr h), rfl⟩

theorem exec_fieldCommand_leavesErr {s : State} (hinv : s.Inv) {i : Instr}
    (hi : i ∈ [Instr.fadd, .fsub, .fmul]) :
    LeavesErr (exec i s) (if s.pvalid = false then .nofield else .success) := by
  obtain ⟨-, hcases⟩ := fieldCommandsFailOnlyWithoutAField
  obtain ⟨hnofield, hfield⟩ := hcases s i hi
  split_ifs with hv
  · exact ⟨_, hnofield hv, rfl⟩
  · obtain ⟨-, r, hexec⟩ := hfield hinv (eq_true_of_ne_false hv)
    exact ⟨_, hexec, rfl⟩

/-- Under the invariant every command goes on and leaves `commandError` in ERR. -/
theorem exec_leavesErr {s : State} (hinv : s.Inv) (i : Instr) :
    LeavesErr (exec i s) (commandError s i) := by
  cases i with
  | isprime => exact ⟨_, rfl, rfl⟩
  | modinv => exact exec_modinv_leavesErr s
  | fcons => exact exec_fcons_leavesErr s
  | fadd => exact exec_fieldCommand_leavesErr hinv (by decide)
  | fsub => exact exec_fieldCommand_leavesErr hinv (by decide)
  | fmul => exact exec_fieldCommand_leavesErr hinv (by decide)

/-! ## The cause of each error -/

section
variable (s : State) (i : Instr)

theorem commandError_eq_invarg_iff :
    commandError s i = .invarg ↔
      encode i = 0x10 ∧ (s.opa ≤ 1 ∨ ¬ IsPrimeNumber s.opa) := by
  have hsmall : s.opa ≤ 1 → ¬ IsPrimeNumber s.opa := fun h hprime => absurd hprime.1 (by omega)
  rw [or_iff_right_of_imp hsmall]
  cases i <;> simp [commandError, encode, Instr.fam, Instr.fn, ite_eq_iff]

theorem commandError_eq_noinv_iff :
    commandError s i = .noinv ↔ encode i = 0x02 ∧ 1 ≤ s.opb ∧ 1 < Nat.gcd s.opa s.opb := by
  cases i <;> simp [commandError, encode, Instr.fam, Instr.fn, ite_eq_iff, Nat.one_le_iff_ne_zero]

theorem commandError_eq_badmod_iff :
    commandError s i = .badmod ↔ encode i = 0x02 ∧ s.opb = 0 := by
  cases i <;> simp [commandError, encode, Instr.fam, Instr.fn, ite_eq_iff]

theorem commandError_eq_nofield_iff :
    commandError s i = .nofield ↔
      (encode i = 0x11 ∨ encode i = 0x12 ∨ encode i = 0x13) ∧ s.pvalid = false := by
  cases i <;> simp [commandError, encode, Instr.fam, Instr.fn, ite_eq_iff]

theorem commandError_ne_illcmd : commandError s i ≠ .illcmd := by
  cases i <;> simp [commandError, ite_eq_iff]

end

/-! ## The obligations -/

/-- Settles O22: a word of R62 is a command, whose error and its causes are `commandError`'s; any
other value raises ILLCMD. -/
theorem eachErrorHasExactlyItsCause : Obligations.EachErrorHasExactlyItsCause := by
  refine ⟨rfl, rfl, rfl, rfl, rfl, fun s v rest hinv hp hfit => ?_⟩
  rw [step_commandWrite hp hfit]
  by_cases hv : v ∈ [0x01, 0x02, 0x10, 0x11, 0x12, 0x13]
  case pos =>
    obtain ⟨i, rfl⟩ := exists_encode_of_mem_commandWords hv
    obtain ⟨t, hexec, herr⟩ := exec_leavesErr (s := s.withPending rest) hinv i
    refine ⟨t, (execute_encode i _).trans hexec, ?_⟩
    rw [herr]
    exact ⟨commandError_eq_invarg_iff _ i, commandError_eq_noinv_iff _ i,
      commandError_eq_badmod_iff _ i, commandError_eq_nofield_iff _ i,
      iff_of_false (commandError_ne_illcmd _ i) (not_not_intro hv)⟩
  case neg =>
    refine ⟨_, execute_of_not_mem_commandWords hv _, ?_⟩
    simp only [List.mem_cons, List.not_mem_nil, or_false, not_or] at hv
    simp [hv]

/-- Settles O23: of the endings of a write to CMD only `raise` leaves an error. -/
theorem errorEntryChangesOnlyErr : Obligations.ErrorEntryChangesOnlyErr := by
  intro s t v rest hp h herr
  rcases execute_next_cases (execute_of_step_commandWrite hp h) with
    ⟨e, -, rfl⟩ | ⟨i, r, -, -, rfl⟩ | ⟨-, -, rfl⟩
  · rfl
  · exact absurd rfl herr
  · exact absurd rfl herr

end Sys2Proof.Machine

/-! # Proofs: the round trip of the encoding (30_encoding.md) -/

namespace Sys2Proof

@[simp] theorem decode_encode (i : Instr) : decode (encode i) = .ok i := by
  cases i with
  | isprime => exact Laws.EncodeDecode.isprime
  | modinv => exact Laws.EncodeDecode.modinv
  | fcons => exact Laws.EncodeDecode.fcons
  | fadd => exact Laws.EncodeDecode.fadd
  | fsub => exact Laws.EncodeDecode.fsub
  | fmul => exact Laws.EncodeDecode.fmul

/-- A command word has every bit above bit 7 clear (R60). -/
theorem encode_lt (i : Instr) : encode i < 2 ^ 8 := (i.fam ++ i.fn).isLt

/-- Every width of 00_scope.md R5 holds what eight bits hold. -/
theorem fits_of_lt_two_pow_eight {width v : Nat} (hwidth : 8 ≤ width) (hv : v < 2 ^ 8) :
    fits width v :=
  hv.trans_le (Nat.pow_le_pow_right (by decide) hwidth)

theorem fits_encode {width : Nat} (hwidth : 8 ≤ width) (i : Instr) : fits width (encode i) :=
  fits_of_lt_two_pow_eight hwidth (encode_lt i)

@[simp] theorem tableWord_encode (i : Instr) : tableWord 8 (encode i) = encode i :=
  Nat.mod_eq_of_lt (encode_lt i)

/-! ## The obligations -/

/-- Settles O2: the fields of a decoded value are those of its command, and the value has no other
bits. -/
theorem decoderAcceptsExactlyTheEncodedWords :
    Obligations.DecoderAcceptsExactlyTheEncodedWords := by
  refine fun v i => ⟨eq_encode_of_decode_eq_ok, ?_⟩
  rintro rfl
  exact decode_encode i

/-- Settles O1: the six words are the encoder's. -/
theorem tableWordsDecodeToTheirCommands : Obligations.TableWordsDecodeToTheirCommands :=
  ⟨decode_encode .isprime, decode_encode .modinv, decode_encode .fcons, decode_encode .fadd,
    decode_encode .fsub, decode_encode .fmul⟩

namespace Machine

/-- Settles O4: the step is `Execute` of the written value, and a command's word fits every legal
width. -/
theorem stepRunsTheDecodedCommand : Obligations.StepRunsTheDecodedCommand := by
  refine ⟨fun s v i rest hp hv hdec => ?decoded, fun s i rest hp hwidth => ?encoded,
    fun s i hwidth => ?placed⟩
  case decoded => exact (step_commandWrite hp hv).trans (execute_of_decode_ok hdec _)
  case encoded =>
    exact (step_commandWrite hp (fits_encode hwidth i)).trans (execute_encode i _)
  case placed =>
    have hp : (s.withFetchWord 8 (encode i)).pending = .write 2#3 (encode i) :: s.pending := by
      simp [State.withFetchWord, placeCommandWrite]
    exact (step_commandWrite hp (fits_encode hwidth i)).trans (execute_encode i s)

/-- Settles O5: each kind of transaction drives its own combination of `rst` and `we`. -/
theorem portSignalsCarryTheTransaction : Obligations.PortSignalsCarryTheTransaction := by
  intro t
  cases t with
  | read i => rfl
  | write i v => rfl
  | reset => rfl

/-- Settles O6. -/
theorem idleStepRetainsAllState : Obligations.IdleStepRetainsAllState :=
  fun _ h => step_idle h

end Machine

end Sys2Proof

/-! # Proofs: the invariant of the machine (10_state.md section 4)

Each state operation keeps the invariant when the value it writes fits; the values that reads
return and that commands write do; and so every step keeps it. -/

namespace Sys2Proof.Machine

/-! ## What a step can do, transaction by transaction -/

/-- Everything a step that goes on can have done, with a host write split by its index. -/
theorem step_next_cases_by_index {s t : State} (h : step s = .next t) :
    (s.pending = [] ∧ t = s) ∨
    (∃ i rest, s.pending = .read i :: rest ∧ t = (s.withPending rest).record (s.readIndex i)) ∨
    (∃ v rest, s.pending = .write 0#3 v :: rest ∧ fits s.cfg.width v ∧
      t = (s.withPending rest).setOpa v) ∨
    (∃ v rest, s.pending = .write 1#3 v :: rest ∧ fits s.cfg.width v ∧
      t = (s.withPending rest).setOpb v) ∨
    (∃ v rest, s.pending = .write 2#3 v :: rest ∧ execute v (s.withPending rest) = .next t) ∨
    (∃ i v rest, s.pending = .write i v :: rest ∧ 3 ≤ i.toNat ∧ t = s.withPending rest) ∨
    (∃ rest, s.pending = .reset :: rest ∧ t = (s.withPending rest).applyReset) := by
  rcases step_next_cases h with hidle | hread | ⟨i, v, rest, hp, hv, hw⟩ | hreset
  · exact .inl hidle
  · exact .inr (.inl hread)
  · rcases hostWrite_next_cases hw with ⟨rfl, ht⟩ | ⟨rfl, ht⟩ | ⟨rfl, hx⟩ | ⟨hi, ht⟩
    · exact .inr (.inr (.inl ⟨v, rest, hp, hv, ht⟩))
    · exact .inr (.inr (.inr (.inl ⟨v, rest, hp, hv, ht⟩)))
    · exact .inr (.inr (.inr (.inr (.inl ⟨v, rest, hp, hx⟩))))
    · exact .inr (.inr (.inr (.inr (.inr (.inl ⟨i, v, rest, hp, hi, ht⟩)))))
  · exact .inr (.inr (.inr (.inr (.inr (.inr hreset)))))

/-! ## The state operations keep the invariant -/

section
variable {s : State} {v : Nat}

theorem State.Inv.width_le (h : s.Inv) : 8 ≤ s.cfg.width := by
  obtain ⟨⟨hwidth, -⟩, -⟩ := h
  exact of_decide_eq_true hwidth

theorem State.Inv.fits_opa (h : s.Inv) : fits s.cfg.width s.opa := by
  obtain ⟨⟨-, hopa, -⟩, -⟩ := h
  exact hopa

theorem State.Inv.withPending (h : s.Inv) (ts : List Transaction) : (s.withPending ts).Inv := h

theorem State.Inv.raise (h : s.Inv) (e : ErrorCode) : (s.raise e).Inv := h

theorem State.Inv.setOpa (h : s.Inv) (hv : fits s.cfg.width v) : (s.setOpa v).Inv := by
  obtain ⟨⟨hwidth, -, hopb, hres, hp, hreturned⟩, hfield⟩ := h
  exact ⟨⟨hwidth, hv, hopb, hres, hp, hreturned⟩, hfield⟩

theorem State.Inv.setOpb (h : s.Inv) (hv : fits s.cfg.width v) : (s.setOpb v).Inv := by
  obtain ⟨⟨hwidth, hopa, -, hres, hp, hreturned⟩, hfield⟩ := h
  exact ⟨⟨hwidth, hopa, hv, hres, hp, hreturned⟩, hfield⟩

theorem State.Inv.succeedWith (h : s.Inv) (hv : fits s.cfg.width v) : (s.succeedWith v).Inv := by
  obtain ⟨⟨hwidth, hopa, hopb, -, hp, hreturned⟩, hfield⟩ := h
  exact ⟨⟨hwidth, hopa, hopb, hv, hp, hreturned⟩, hfield⟩

theorem State.Inv.installField (h : s.Inv) (hv : fits s.cfg.width v) (hprime : IsPrimeNumber v) :
    (s.installField v).Inv := by
  obtain ⟨⟨hwidth, hopa, hopb, hres, -, hreturned⟩, -⟩ := h
  exact ⟨⟨hwidth, hopa, hopb, hres, hv, hreturned⟩, .inr ⟨rfl, hprime⟩⟩

theorem State.Inv.record (h : s.Inv) (hv : fits s.cfg.width v) : (s.record v).Inv := by
  obtain ⟨⟨hwidth, hopa, hopb, hres, hp, hreturned⟩, hfield⟩ := h
  refine ⟨⟨hwidth, hopa, hopb, hres, hp, fun w hw => ?_⟩, hfield⟩
  rcases List.mem_append.mp hw with hold | hnew
  · exact hreturned w hold
  · exact List.mem_singleton.mp hnew ▸ hv

theorem State.Inv.applyReset (h : s.Inv) : s.applyReset.Inv := by
  obtain ⟨⟨hwidth, -, -, -, -, hreturned⟩, -⟩ := h
  have hzero : fits s.cfg.width 0 := Nat.two_pow_pos _
  exact ⟨⟨hwidth, hzero, hzero, hzero, hzero, hreturned⟩, .inl ⟨rfl, rfl⟩⟩

end

/-! ## The values a step writes fit -/

/-- STATUS has five bits (R26). -/
theorem statusWord_lt (b : Bool) (e : ErrorCode) : statusWord b e < 2 ^ 8 := by
  obtain ⟨-, -, hhigh⟩ := statusWord_fields b e
  omega

/-- A read returns a register, STATUS or 0 (20_memory.md R43). -/
theorem State.Inv.fits_readIndex {s : State} (h : s.Inv) (i : Index) :
    fits s.cfg.width (s.readIndex i) := by
  have hwidth := h.width_le
  obtain ⟨⟨-, hopa, hopb, hres, hp, -⟩, -⟩ := h
  unfold State.readIndex
  split
  case h_1 => exact hopa
  case h_2 => exact hopb
  case h_4 => exact fits_of_lt_two_pow_eight hwidth (statusWord_lt _ _)
  case h_5 => exact hres
  case h_6 => exact hp
  all_goals exact Nat.two_pow_pos _

/-- What a field operation leaves in RES is its old value or a residue modulo P. -/
theorem fieldOperation_res_cases {f : Int → Int → Int} {s t : State}
    (h : fieldOperation f s = .next t) : t.res = s.res ∨ t.res < s.p := by
  rcases fieldOperation_cases f s with ⟨-, hf⟩ | ⟨-, -, hf⟩ | ⟨-, hpos, hf⟩ <;> rw [hf] at h
  · cases h
    exact .inl rfl
  · cases h
  · cases h
    exact .inr (floorMod_isFloorMod _ hpos).1

/-- What MODINV leaves in RES is its old value or a residue modulo OPB. -/
theorem execModinv_res_cases {s t : State} (h : execModinv s = .next t) :
    t.res = s.res ∨ t.res < s.opb := by
  rcases execModinv_cases s with ⟨-, hm⟩ | ⟨-, -, hm⟩ | ⟨hne, -, hm⟩ <;> rw [hm] at h <;> cases h
  · exact .inl rfl
  · exact .inl rfl
  · exact .inr (floorMod_isFloorMod _ (Nat.pos_of_ne_zero hne)).1

/-- What a command leaves in RES: its old value, a bit, or a residue modulo OPB or P. -/
theorem exec_res_cases {i : Instr} {s t : State} (h : exec i s = .next t) :
    t.res = s.res ∨ t.res ≤ 1 ∨ t.res < s.opb ∨ t.res < s.p := by
  have field : ∀ f, fieldOperation f s = .next t →
      t.res = s.res ∨ t.res ≤ 1 ∨ t.res < s.opb ∨ t.res < s.p := fun f hf =>
    (fieldOperation_res_cases hf).imp_right fun hlt => .inr (.inr hlt)
  cases i with
  | isprime =>
    cases h
    exact .inr (.inl (Bool.toNat_le _))
  | modinv => exact (execModinv_res_cases h).imp_right fun hlt => .inr (.inl hlt)
  | fcons =>
    rcases exec_next_cases h with ⟨e, -, rfl⟩ | ⟨hne, -⟩ | ⟨-, -, rfl⟩
    · exact .inl rfl
    · exact absurd rfl hne
    · exact .inl rfl
  | fadd => exact field _ h
  | fsub => exact field _ h
  | fmul => exact field _ h

theorem State.Inv.fits_res_of_exec {i : Instr} {s t : State} (hinv : s.Inv)
    (h : exec i s = .next t) : fits s.cfg.width t.res := by
  have hwidth := hinv.width_le
  obtain ⟨⟨-, -, hopb, hres, hp, -⟩, -⟩ := hinv
  rcases exec_res_cases h with heq | hbit | hlt | hlt
  · exact heq ▸ hres
  · exact fits_of_lt_two_pow_eight hwidth (by omega)
  · exact hlt.trans hopb
  · exact hlt.trans hp

/-! ## Commands and steps keep the invariant -/

theorem State.Inv.of_exec {i : Instr} {s t : State} (hinv : s.Inv) (h : exec i s = .next t) :
    t.Inv := by
  have hres := hinv.fits_res_of_exec h
  rcases exec_next_cases h with ⟨e, -, rfl⟩ | ⟨-, v, rfl⟩ | ⟨-, hprime, rfl⟩
  · exact hinv.raise e
  · exact hinv.succeedWith hres
  · exact hinv.installField hinv.fits_opa ((isprime_eq_true_iff _).mp hprime)

theorem State.Inv.of_execute {v : Nat} {s t : State} (hinv : s.Inv)
    (h : execute v s = .next t) : t.Inv := by
  rcases execute_cases v s with ⟨i, -, hexec⟩ | ⟨e, -, hill⟩
  · exact hinv.of_exec (hexec ▸ h)
  · cases hill.symm.trans h
    exact hinv.raise .illcmd

/-! ## The obligations -/

/-- Settles O32: each transaction is a state operation that keeps the invariant, or a command. -/
theorem stepKeepsTheInvariant : Obligations.StepKeepsTheInvariant := by
  intro s t hinv h
  rcases step_next_cases_by_index h with ⟨-, rfl⟩ | ⟨i, rest, -, rfl⟩ | ⟨v, rest, -, hv, rfl⟩ |
    ⟨v, rest, -, hv, rfl⟩ | ⟨v, rest, -, hexec⟩ | ⟨i, v, rest, -, -, rfl⟩ | ⟨rest, -, rfl⟩
  · exact hinv
  · exact (hinv.withPending rest).record (hinv.fits_readIndex i)
  · exact (hinv.withPending rest).setOpa hv
  · exact (hinv.withPending rest).setOpb hv
  · exact (hinv.withPending rest).of_execute hexec
  · exact hinv.withPending rest
  · exact (hinv.withPending rest).applyReset

/-- Settles O33: all registers are 0 and no field is constructed. -/
theorem resetMeetsTheInvariant : Obligations.ResetMeetsTheInvariant := by
  have hreset : ∀ c : Config, 8 ≤ c.width → (State.resetOf c).Inv := fun c hwidth =>
    have hzero : fits c.width 0 := Nat.two_pow_pos _
    ⟨⟨decide_eq_true hwidth, hzero, hzero, hzero, hzero, nofun⟩, .inl ⟨rfl, rfl⟩⟩
  exact ⟨hreset Config.recommended (by decide), hreset⟩

/-- Settles O12: a reset state is its own reset, after which every index reads 0. -/
theorem initialStateHoldsTheResetValues : Obligations.InitialStateHoldsTheResetValues :=
  fun c => ⟨rfl, rfl, rfl, rfl, rfl, rfl,
    fun i => State.readIndex_applyReset (State.resetOf c) i, rfl⟩

end Sys2Proof.Machine

/-! # Proofs: who writes what (10_state.md sections 2 and 4, 30_encoding.md section 2)

Each field, followed through what a step can do. -/

namespace Sys2Proof.Machine

/-! ## The endings of a write to CMD, with the error each leaves -/

/-- A write to CMD that changes RES was a command other than FCONS that succeeded (R23). -/
theorem execute_res_cases {v : Nat} {s t : State} (h : execute v s = .next t) :
    t.res = s.res ∨ (t.err = .success ∧ ∃ i, decode v = .ok i ∧ i ≠ .fcons) := by
  rcases execute_next_cases h with ⟨e, -, rfl⟩ | ⟨i, r, hdec, hne, rfl⟩ | ⟨-, -, rfl⟩
  · exact .inl rfl
  · exact .inr ⟨rfl, i, hdec, hne⟩
  · exact .inl rfl

/-- A write to CMD that changes P was FCONS, which copied OPA (R29). -/
theorem execute_p_cases {v : Nat} {s t : State} (h : execute v s = .next t) :
    t.p = s.p ∨ (v = encode .fcons ∧ t = s.installField s.opa) := by
  rcases execute_next_cases h with ⟨e, -, rfl⟩ | ⟨i, r, -, -, rfl⟩ | ⟨hv, -, rfl⟩
  · exact .inl rfl
  · exact .inl rfl
  · exact .inr ⟨hv, rfl⟩

/-- Only a write to CMD or Reset writes RES or P (R23, R29). -/
theorem step_res_p_cases {s t : State} (h : step s = .next t) :
    (t.res = s.res ∧ t.p = s.p) ∨
    (∃ v rest, s.pending = .write 2#3 v :: rest ∧ execute v (s.withPending rest) = .next t) ∨
    (∃ rest, s.pending = .reset :: rest ∧ t = (s.withPending rest).applyReset) := by
  rcases step_next_cases_by_index h with ⟨-, rfl⟩ | ⟨i, rest, -, rfl⟩ | ⟨v, rest, -, -, rfl⟩ |
    ⟨v, rest, -, -, rfl⟩ | hexec | ⟨i, v, rest, -, -, rfl⟩ | hreset
  · exact .inl ⟨rfl, rfl⟩
  · exact .inl ⟨rfl, rfl⟩
  · exact .inl ⟨rfl, rfl⟩
  · exact .inl ⟨rfl, rfl⟩
  · exact .inr (.inl hexec)
  · exact .inl ⟨rfl, rfl⟩
  · exact .inr (.inr hreset)

theorem mem_resultCommands_of_ne_fcons {i : Instr} (h : i ≠ .fcons) :
    i ∈ [Instr.isprime, .modinv, .fadd, .fsub, .fmul] := by
  cases i with
  | fcons => exact absurd rfl h
  | isprime | modinv | fadd | fsub | fmul => decide

/-! ## The obligations -/

/-- Settles O25: an error writes ERR, a value RES and ERR, and FCONS the field context and ERR. -/
theorem commandsWriteOnlyTheirDestinations : Obligations.CommandsWriteOnlyTheirDestinations := by
  refine fun s t => ⟨fun i hi h => ?result, fun h => ?fcons⟩
  case result =>
    rcases exec_next_cases h with ⟨e, -, rfl⟩ | ⟨-, v, rfl⟩ | ⟨rfl, -⟩
    · rfl
    · rfl
    · exact absurd hi (by decide)
  case fcons =>
    rcases exec_next_cases h with ⟨e, -, rfl⟩ | ⟨hne, -⟩ | ⟨-, -, rfl⟩
    · rfl
    · exact absurd rfl hne
    · rfl

/-- Settles O26: of the transactions only the writes to index 0 and 1 and Reset reach an operand. -/
theorem operandsChangeOnlyByHostWriteOrReset :
    Obligations.OperandsChangeOnlyByHostWriteOrReset := by
  intro s t h
  rcases step_next_cases_by_index h with ⟨-, rfl⟩ | ⟨i, rest, -, rfl⟩ | ⟨v, rest, hp, -, rfl⟩ |
    ⟨v, rest, hp, -, rfl⟩ | ⟨v, rest, -, hexec⟩ | ⟨i, v, rest, -, -, rfl⟩ | ⟨rest, hp, -⟩
  · exact ⟨absurd rfl, absurd rfl⟩
  · exact ⟨absurd rfl, absurd rfl⟩
  · exact ⟨fun _ => .inl ⟨rest, hp⟩, absurd rfl⟩
  · exact ⟨absurd rfl, fun _ => .inl ⟨rest, hp⟩⟩
  · rw [execute_frame hexec]
    exact ⟨absurd rfl, absurd rfl⟩
  · exact ⟨absurd rfl, absurd rfl⟩
  · exact ⟨fun _ => .inr ⟨rest, hp⟩, fun _ => .inr ⟨rest, hp⟩⟩

/-- Settles O27: besides Reset only a write to CMD reaches RES, and of its endings only a value. -/
theorem resChangesOnlyBySuccessfulResultCommand :
    Obligations.ResChangesOnlyBySuccessfulResultCommand := by
  intro s t h hne
  rcases step_res_p_cases h with ⟨hkept, -⟩ | ⟨v, rest, hp, hexec⟩ | ⟨rest, hp, rfl⟩
  · exact absurd hkept hne
  · obtain ⟨herr, i, hdec, hi⟩ := (execute_res_cases hexec).resolve_left hne
    exact .inr ⟨herr, v, i, rest, hp, hdec, mem_resultCommands_of_ne_fcons hi⟩
  · exact .inl ⟨rfl, rest, hp⟩

/-- Settles O29: besides Reset only a write to CMD reaches P, and of its endings only FCONS's. -/
theorem modulusChangesOnlyByFconsOrReset : Obligations.ModulusChangesOnlyByFconsOrReset := by
  intro s t h hne
  rcases step_res_p_cases h with ⟨-, hkept⟩ | ⟨v, rest, hp, hexec⟩ | ⟨rest, hp, rfl⟩
  · exact absurd hkept hne
  · obtain ⟨rfl, rfl⟩ := (execute_p_cases hexec).resolve_left hne
    exact .inr ⟨rfl, rfl, rfl, rest, hp⟩
  · exact .inl ⟨rfl, rest, hp⟩

/-- Settles O31: each transaction starts from the state without it, and only a read records. -/
theorem stepTakesOneTransactionAndKeepsTheBuild :
    Obligations.StepTakesOneTransactionAndKeepsTheBuild := by
  intro s t h
  rcases step_next_cases_by_index h with ⟨hp, rfl⟩ | ⟨i, rest, hp, rfl⟩ | ⟨v, rest, hp, -, rfl⟩ |
    ⟨v, rest, hp, -, rfl⟩ | ⟨v, rest, hp, hexec⟩ | ⟨i, v, rest, hp, -, rfl⟩ | ⟨rest, hp, rfl⟩ <;>
    rw [hp]
  · exact ⟨rfl, rfl, .inr ⟨nofun, rfl⟩⟩
  · exact ⟨rfl, rfl, .inl ⟨i, rest, rfl, rfl⟩⟩
  · exact ⟨rfl, rfl, .inr ⟨nofun, rfl⟩⟩
  · exact ⟨rfl, rfl, .inr ⟨nofun, rfl⟩⟩
  · rw [execute_frame hexec]
    exact ⟨rfl, rfl, .inr ⟨nofun, rfl⟩⟩
  · exact ⟨rfl, rfl, .inr ⟨nofun, rfl⟩⟩
  · exact ⟨rfl, rfl, .inr ⟨nofun, rfl⟩⟩

end Sys2Proof.Machine

/-! # Proofs: commands are functions of the operands and the field (10_state.md R32)

Two states with the same operands and field context are taken through each command side by side. -/

namespace Sys2Proof.Machine

/-- The four registers that a command may read (R32). -/
structure State.SameOperands (s s' : State) : Prop where
  opa : s.opa = s'.opa
  opb : s.opb = s'.opb
  p : s.p = s'.p
  pvalid : s.pvalid = s'.pvalid

/-- Command `i` ends alike from `s` and from `s'`: with the same error, the same value, the same new
field, or the same fault. -/
inductive SameEnding (i : Instr) (s s' : State) :
    Host.Outcome State Fault Refusal → Host.Outcome State Fault Refusal → Prop
  | raise (e : ErrorCode) (he : e ≠ .success) :
      SameEnding i s s' (.next (s.raise e)) (.next (s'.raise e))
  | succeedWith (v : Nat) : SameEnding i s s' (.next (s.succeedWith v)) (.next (s'.succeedWith v))
  | installField (v : Nat) (hi : i = .fcons) :
      SameEnding i s s' (.next (s.installField v)) (.next (s'.installField v))
  | fault (f : Fault) : SameEnding i s s' (.fault f) (.fault f)

section
variable {s s' : State}

theorem fieldOperation_sameEnding (i : Instr) (f : Int → Int → Int) (h : s.SameOperands s') :
    SameEnding i s s' (fieldOperation f s) (fieldOperation f s') := by
  unfold fieldOperation modulusOperand firstOperand secondOperand
  rw [← h.opa, ← h.opb, ← h.p, ← h.pvalid]
  split_ifs
  · exact .raise .nofield nofun
  · exact .fault .modulusZero
  · exact .succeedWith _

theorem execModinv_sameEnding (h : s.SameOperands s') :
    SameEnding .modinv s s' (execModinv s) (execModinv s') := by
  unfold execModinv firstOperand secondOperand
  rw [← h.opa, ← h.opb]
  split_ifs
  · exact .raise .badmod nofun
  · cases modinv s.opa s.opb with
    | none => exact .raise .noinv nofun
    | some x => exact .succeedWith x

theorem execFcons_sameEnding (h : s.SameOperands s') :
    SameEnding .fcons s s' (execFcons s) (execFcons s') := by
  unfold execFcons firstOperand
  rw [← h.opa]
  split_ifs
  · exact .raise .invarg nofun
  · exact .installField _ rfl

theorem exec_sameEnding (i : Instr) (h : s.SameOperands s') :
    SameEnding i s s' (exec i s) (exec i s') := by
  cases i with
  | isprime =>
    simp only [exec, execIsprime, firstOperand, ← h.opa]
    exact .succeedWith _
  | modinv => exact execModinv_sameEnding h
  | fcons => exact execFcons_sameEnding h
  | fadd => exact fieldOperation_sameEnding _ _ h
  | fsub => exact fieldOperation_sameEnding _ _ h
  | fmul => exact fieldOperation_sameEnding _ _ h

end

/-- Settles O30: the two runs end alike, and each ending writes the same values. -/
theorem commandsDependOnlyOnOperandsAndField :
    Obligations.CommandsDependOnlyOnOperandsAndField := by
  intro s s' t i hopa hopb hp hpvalid h
  have hsame := exec_sameEnding i ⟨hopa, hopb, hp, hpvalid⟩
  rw [h] at hsame
  generalize exec i s' = outcome at hsame ⊢
  cases hsame with
  | raise e he =>
    exact ⟨_, rfl, hp.symm, hpvalid.symm, rfl, .inr ⟨rfl, rfl⟩, fun hok => absurd hok he⟩
  | succeedWith v => exact ⟨_, rfl, hp.symm, hpvalid.symm, rfl, .inl rfl, fun _ _ => rfl⟩
  | installField v hi => exact ⟨_, rfl, rfl, rfl, rfl, .inr ⟨rfl, rfl⟩, fun _ hne => absurd hi hne⟩

end Sys2Proof.Machine

/-! # Proofs: where the machine stops (00_scope.md section 3, 93_implementation_defined.md U7)

Only a field operation faults and only the port refuses; under the invariant neither stops a
presentable transaction. -/

namespace Sys2Proof.Machine

/-- A field is marked as constructed and its modulus is 0, which R30 excludes (log 7). -/
def State.ModulusMissing (s : State) : Prop := s.pvalid = true ∧ s.p = 0

/-! ## Commands -/

section
variable {s : State}

theorem fieldOperation_of_modulusMissing (f : Int → Int → Int) (h : s.ModulusMissing) :
    fieldOperation f s = .fault .modulusZero := by
  obtain ⟨hv, hp⟩ := h
  rcases fieldOperation_cases f s with ⟨hv', -⟩ | ⟨-, -, hf⟩ | ⟨-, hpos, -⟩
  · exact absurd (hv.symm.trans hv') nofun
  · exact hf
  · omega

theorem fieldOperation_goes_on (f : Int → Int → Int) (h : ¬ s.ModulusMissing) :
    ∃ t, fieldOperation f s = .next t := by
  rcases fieldOperation_cases f s with ⟨-, hf⟩ | ⟨hv, hp, -⟩ | ⟨-, -, hf⟩
  · exact ⟨_, hf⟩
  · exact absurd ⟨hv, hp⟩ h
  · exact ⟨_, hf⟩

theorem execModinv_goes_on (s : State) : ∃ t, execModinv s = .next t := by
  rcases execModinv_cases s with ⟨-, h⟩ | ⟨-, -, h⟩ | ⟨-, -, h⟩
  · exact ⟨_, h⟩
  · exact ⟨_, h⟩
  · exact ⟨_, h⟩

theorem execFcons_goes_on (s : State) : ∃ t, execFcons s = .next t := by
  rcases execFcons_cases s with ⟨-, h⟩ | ⟨-, h⟩
  · exact ⟨_, h⟩
  · exact ⟨_, h⟩

/-- Every command goes on, but for the three field commands when the modulus is missing. -/
theorem exec_goes_on {i : Instr} (h : encode i ∈ [0x11, 0x12, 0x13] → ¬ s.ModulusMissing) :
    ∃ t, exec i s = .next t := by
  cases i with
  | isprime => exact ⟨_, rfl⟩
  | modinv => exact execModinv_goes_on s
  | fcons => exact execFcons_goes_on s
  | fadd => exact fieldOperation_goes_on _ (h (by decide))
  | fsub => exact fieldOperation_goes_on _ (h (by decide))
  | fmul => exact fieldOperation_goes_on _ (h (by decide))

/-! ## Writes to CMD -/

theorem execute_goes_on {v : Nat} (h : v ∈ [0x11, 0x12, 0x13] → ¬ s.ModulusMissing) :
    ∃ t, execute v s = .next t := by
  rcases execute_cases v s with ⟨i, hdec, hexec⟩ | ⟨-, -, hill⟩
  · rw [hexec]
    exact exec_goes_on (eq_encode_of_decode_eq_ok hdec ▸ h)
  · exact ⟨_, hill⟩

theorem execute_of_modulusMissing {v : Nat} (hv : v ∈ [0x11, 0x12, 0x13])
    (h : s.ModulusMissing) : execute v s = .fault .modulusZero := by
  simp only [List.mem_cons, List.not_mem_nil, or_false] at hv
  rcases hv with rfl | rfl | rfl
  all_goals exact fieldOperation_of_modulusMissing _ h

/-! ## Transactions -/

section
variable {i : Index} {v : Nat} {rest : List Transaction}

theorem step_of_not_fits (hp : s.pending = .write i v :: rest) (hv : ¬ fits s.cfg.width v) :
    step s = .refused (.valueNotPresentable v) :=
  (step_pending hp).trans (if_neg hv)

theorem step_of_modulusMissing (hp : s.pending = .write 2#3 v :: rest)
    (hfit : fits s.cfg.width v) (hv : v ∈ [0x11, 0x12, 0x13]) (h : s.ModulusMissing) :
    step s = .fault .modulusZero :=
  (step_commandWrite hp hfit).trans (execute_of_modulusMissing (s := s.withPending rest) hv h)

theorem hostWrite_goes_on (h : i = 2#3 → v ∈ [0x11, 0x12, 0x13] → ¬ s.ModulusMissing) :
    ∃ t, hostWrite i v s = .next t := by
  rcases hostWrite_cases i v s with ⟨-, hw⟩ | ⟨-, hw⟩ | ⟨hi, hw⟩ | ⟨-, hw⟩ <;> rw [hw]
  · exact ⟨_, rfl⟩
  · exact ⟨_, rfl⟩
  · exact execute_goes_on (h hi)
  · exact ⟨_, rfl⟩

end

end

/-- The three outcomes of a step: it goes on, or it is stopped by one of the two causes of log 6 and
log 7. -/
theorem step_outcome_cases (s : State) :
    s.StepsOn ∨
    (∃ i v rest, s.pending = .write i v :: rest ∧ ¬ fits s.cfg.width v ∧
      step s = .refused (.valueNotPresentable v)) ∨
    (s.ModulusMissing ∧ ∃ v rest, s.pending = .write 2#3 v :: rest ∧ fits s.cfg.width v ∧
      v ∈ [0x11, 0x12, 0x13] ∧ step s = .fault .modulusZero) := by
  cases hp : s.pending with
  | nil => exact .inl ⟨_, step_idle hp⟩
  | cons tr rest =>
    cases tr with
    | read i => exact .inl ⟨_, step_read hp⟩
    | reset => exact .inl ⟨_, step_reset hp⟩
    | write i v =>
      by_cases hfit : fits s.cfg.width v
      case neg => exact .inr (.inl ⟨i, v, rest, rfl, hfit, step_of_not_fits hp hfit⟩)
      case pos =>
        by_cases hstop : i = 2#3 ∧ v ∈ [0x11, 0x12, 0x13] ∧ s.ModulusMissing
        case pos =>
          obtain ⟨rfl, hv, hmissing⟩ := hstop
          exact .inr (.inr ⟨hmissing, v, rest, rfl, hfit, hv,
            step_of_modulusMissing hp hfit hv hmissing⟩)
        case neg =>
          have hgo : ∃ t, hostWrite i v (s.withPending rest) = .next t :=
            hostWrite_goes_on fun hi hv hmissing => hstop ⟨hi, hv, hmissing⟩
          exact .inl (hgo.imp fun t ht => (step_write hp hfit).trans ht)

/-- The invariant excludes the state in which a field command faults (R30). -/
theorem State.Inv.not_modulusMissing {s : State} (h : s.Inv) : ¬ s.ModulusMissing := by
  rintro ⟨hv, hp⟩
  have htwo : 2 ≤ s.p := (h.isPrimeNumber_p hv).1
  omega

/-! ## The obligations -/

/-- Settles O35: a step has one of three outcomes, and each stop has its cause and only it. -/
theorem stopsAreOnlyTheTwoNamed : Obligations.StopsAreOnlyTheTwoNamed := by
  refine ⟨fun s r => ⟨fun h => ?refused, ?notFits⟩, fun s f => ⟨fun h => ?fault, ?missing⟩⟩
  case refused =>
    rcases step_outcome_cases s with
      ⟨t, hs⟩ | ⟨i, v, rest, hp, hv, hs⟩ | ⟨-, v, rest, -, -, -, hs⟩
    · cases hs.symm.trans h
    · cases hs.symm.trans h
      exact ⟨i, v, rest, hp, hv, rfl⟩
    · cases hs.symm.trans h
  case notFits =>
    rintro ⟨i, v, rest, hp, hv, rfl⟩
    exact step_of_not_fits hp hv
  case fault =>
    rcases step_outcome_cases s with
      ⟨t, hs⟩ | ⟨i, v, rest, -, -, hs⟩ | ⟨⟨hvalid, hzero⟩, v, rest, hp, hfit, hv, hs⟩
    · cases hs.symm.trans h
    · cases hs.symm.trans h
    · cases hs.symm.trans h
      exact ⟨rfl, hvalid, hzero, v, rest, hp, hfit, hv⟩
  case missing =>
    rintro ⟨rfl, hvalid, hzero, v, rest, hp, hfit, hv⟩
    exact step_of_modulusMissing hp hfit hv ⟨hvalid, hzero⟩

/-- Settles O34: the invariant excludes the fault, and the refusal is of a write that does not
fit. -/
theorem everyPresentableTransactionCompletes :
    Obligations.EveryPresentableTransactionCompletes := by
  refine fun s hinv => ⟨⟨?goesOn, fun h => ?completes⟩, fun f => ?noFault⟩
  case goesOn =>
    rintro ⟨t, hs⟩ tr rest hp
    cases tr with
    | read i => rfl
    | reset => rfl
    | write i v =>
      refine decide_eq_true (by_contra fun hv => ?_)
      exact absurd ((step_of_not_fits hp hv).symm.trans hs) nofun
  case completes =>
    rcases step_outcome_cases s with hgo | ⟨i, v, rest, hp, hv, -⟩ | ⟨hmissing, -⟩
    · exact hgo
    · exact absurd (of_decide_eq_true (h _ rest hp)) hv
    · exact absurd hmissing hinv.not_modulusMissing
  case noFault =>
    rcases step_outcome_cases s with ⟨t, hs⟩ | ⟨i, v, rest, -, -, hs⟩ | ⟨hmissing, -⟩
    · exact hs ▸ nofun
    · exact hs ▸ nofun
    · exact absurd hmissing hinv.not_modulusMissing

end Sys2Proof.Machine

/-! # Proofs: the order of transactions (20_memory.md R50) -/

namespace Sys2Proof.Machine

theorem runSteps_one (s : State) : runSteps 1 s = step s := by
  rw [runSteps]
  cases step s <;> rfl

section
variable {s : State} {a b : Nat} {rest : List Transaction}

/-- The writes of both operands, one after the other (20_memory.md R44). -/
theorem runSteps_operandWrites (hp : s.pending = .write 0#3 a :: .write 1#3 b :: rest)
    (ha : fits s.cfg.width a) (hb : fits s.cfg.width b) :
    runSteps 2 s = .next { s with opa := a, opb := b, pending := rest } :=
  calc runSteps 2 s
    _ = runSteps 1 ((s.withPending (.write 1#3 b :: rest)).setOpa a) :=
      runSteps_succ (step_write hp ha)
    _ = step ((s.withPending (.write 1#3 b :: rest)).setOpa a) := runSteps_one _
    _ = .next { s with opa := a, opb := b, pending := rest } :=
      step_write (s := (s.withPending (.write 1#3 b :: rest)).setOpa a) rfl hb

/-- A write to CMD and then the reads of STATUS and RES return what the command left. -/
theorem runSteps_command_then_reads {v : Nat} {u : State}
    (hp : s.pending = .write 2#3 v :: .read 3#3 :: .read 4#3 :: rest) (h : step s = .next u) :
    runSteps 3 s = .next { u with
      pending := rest
      returned := s.returned ++ [statusWord u.pvalid u.err, u.res] } := by
  have hframe := execute_frame (execute_of_step_commandWrite hp h)
  have hpending : u.pending = [3#3, 4#3].map .read ++ rest := by rw [hframe]; rfl
  have hreturned : u.returned = s.returned := by rw [hframe]; rfl
  rw [runSteps_succ h, ← hreturned]
  exact runSteps_reads hpending

end

/-! ## The obligations -/

/-- Settles O13: the operands are written before the command runs, and the reads come after it. -/
theorem transactionsTakeEffectInOrder : Obligations.TransactionsTakeEffectInOrder := by
  refine ⟨fun s a b v rest hp ha hb => ?operands, fun s u v rest hp h => ?results⟩
  case operands => exact (runSteps_add (runSteps_operandWrites hp ha hb)).trans (runSteps_one _)
  case results => exact runSteps_command_then_reads hp h

end Sys2Proof.Machine

/-! # Proofs: the loop of R82 and the call of MODINV (40_number_theory.md section 2)

The size of the coefficients the loop carries, the inverse as the one solution of its congruence,
and the five transactions of the call. -/

namespace Sys2Proof.Machine

/-! ## The size of the coefficients -/

/-- R83's loop invariant: the coefficients have opposite signs, `ε` and its opposite, and their
magnitudes weigh the remainders to `p`; a remainder other than the last is at least 2. -/
def CoefficientsBounded (p r0 r1 : Nat) (t0 t1 : Int) : Prop :=
  ∃ (ε : Int) (m0 m1 : Nat), (ε = 1 ∨ ε = -1) ∧ t0 = -ε * m0 ∧ t1 = ε * m1 ∧
    m1 * r0 + m0 * r1 = p ∧ m0 < p ∧ (r1 ≠ 0 → 2 ≤ r0)

theorem coefficientsBounded_start {p : Nat} (hp : 2 ≤ p) (a : Nat) :
    CoefficientsBounded p p a 0 1 :=
  ⟨1, 0, 1, .inl rfl, by simp, by simp, by simp, by omega, fun _ => hp⟩

/-- One iteration of R82 swaps the signs and keeps the weighted sum. -/
theorem CoefficientsBounded.iterate {p r0 r1 : Nat} {t0 t1 : Int} (hne : r1 ≠ 0)
    (h : CoefficientsBounded p r0 r1 t0 t1) :
    CoefficientsBounded p r1 (r0 % r1) t1 (t0 - (r0 / r1 : Nat) * t1) := by
  obtain ⟨ε, m0, m1, hε, rfl, rfl, hsum, hlt, htwo⟩ := h
  have hlast : r0 % r1 < r1 := Nat.mod_lt r0 (Nat.pos_of_ne_zero hne)
  refine ⟨-ε, m1, m0 + r0 / r1 * m1, by omega, by ring, by push_cast; ring, ?sum, ?bound, by omega⟩
  case sum =>
    calc (m0 + r0 / r1 * m1) * r1 + m1 * (r0 % r1)
      _ = m1 * (r1 * (r0 / r1) + r0 % r1) + m0 * r1 := by ring
      _ = p := by rw [Nat.div_add_mod, hsum]
  case bound =>
    have hdouble : m1 * 2 ≤ m1 * r0 := Nat.mul_le_mul_left m1 (htwo hne)
    omega

theorem CoefficientsBounded.bounds {p r0 r1 : Nat} {t0 t1 : Int}
    (h : CoefficientsBounded p r0 r1 t0 t1) : -(p : Int) < t0 ∧ t0 < p := by
  obtain ⟨ε, m0, m1, hε, rfl, -, -, hlt, -⟩ := h
  rcases hε with rfl | rfl <;> omega

/-- The loop's result is a coefficient it carried, so it is bounded as they are. -/
theorem egcdLoop_snd_bounds {p fuel r0 r1 : Nat} {t0 t1 : Int}
    (h : CoefficientsBounded p r0 r1 t0 t1) :
    -(p : Int) < (egcdLoop fuel r0 r1 t0 t1).2 ∧ (egcdLoop fuel r0 r1 t0 t1).2 < p := by
  induction fuel generalizing r0 r1 t0 t1 with
  | zero => exact h.bounds
  | succ fuel ih =>
    rcases eq_or_ne r1 0 with rfl | hne
    · rw [egcdLoop_of_zero]
      exact h.bounds
    · rw [egcdLoop_of_ne_zero hne]
      exact ih (h.iterate hne)

theorem egcd_snd_bounds {a p : Nat} (hp : 2 ≤ p) :
    -(p : Int) < (egcd a p).2 ∧ (egcd a p).2 < p :=
  egcdLoop_snd_bounds (coefficientsBounded_start hp a)

/-! ## The floor modulo -/

section
variable {x y : Int} {m r : Nat}

theorem isFloorMod_iff_modEq : IsFloorMod x m r ↔ r < m ∧ x ≡ r [ZMOD m] := by
  refine ⟨fun h => ⟨h.1, modEq_of_isFloorMod h⟩, fun ⟨hlt, hmod⟩ => ⟨hlt, ?_⟩⟩
  obtain ⟨q, hq⟩ := hmod.symm.dvd
  exact ⟨q, by rw [mul_comm, ← hq]; ring⟩

/-- The floor modulo is the one residue in `[0, m)` (00_scope.md R9). -/
theorem floorMod_eq_iff (hm : 0 < m) : floorMod x m = r ↔ r < m ∧ x ≡ r [ZMOD m] := by
  have hfloor := floorMod_isFloorMod x hm
  rw [← isFloorMod_iff_modEq]
  exact ⟨fun h => h ▸ hfloor, fun h => isFloorMod_unique hfloor h⟩

theorem floorMod_lt (hm : 0 < m) (x : Int) : floorMod x m < m := (floorMod_isFloorMod x hm).1

theorem floorMod_modEq (hm : 0 < m) (x : Int) : (floorMod x m : Int) ≡ x [ZMOD m] :=
  (modEq_of_isFloorMod (floorMod_isFloorMod x hm)).symm

theorem floorMod_congr (hm : 0 < m) (h : x ≡ y [ZMOD m]) : floorMod x m = floorMod y m :=
  (floorMod_eq_iff hm).mpr ⟨floorMod_lt hm y, h.trans (floorMod_modEq hm y).symm⟩

/-- On a natural number the floor modulo is the remainder. -/
theorem floorMod_natCast (hm : 0 < m) (n : Nat) : floorMod n m = n % m :=
  (floorMod_eq_iff hm).mpr
    ⟨Nat.mod_lt n hm, Int.natCast_modEq_iff.mpr (Nat.mod_modEq n m).symm⟩

/-- R83: one addition of the modulus normalises a negative value above `-m`. -/
theorem floorMod_of_bounds (hlow : -(m : Int) < x) (hhigh : x < m) :
    (floorMod x m : Int) = if 0 ≤ x then x else x + m := by
  have hm : 0 < m := by omega
  split
  case isTrue hx =>
    have hfloor : floorMod x m = x.toNat :=
      (floorMod_eq_iff hm).mpr ⟨by omega, by rw [Int.toNat_of_nonneg hx]⟩
    rw [hfloor, Int.toNat_of_nonneg hx]
  case isFalse hx =>
    have hshift : 0 ≤ x + m := by omega
    have hfloor : floorMod x m = (x + m).toNat :=
      (floorMod_eq_iff hm).mpr
        ⟨by omega, by rw [Int.toNat_of_nonneg hshift, Int.modEq_comm, Int.add_modulus_modEq_iff]⟩
    rw [hfloor, Int.toNat_of_nonneg hshift]

end

/-! ## The inverse -/

/-- For `p ≥ 1` the failure of R83 is that `a` and `p` are not coprime. -/
theorem modinv_eq_ite {p : Nat} (hp : 1 ≤ p) (a : Nat) :
    modinv a p = if Nat.gcd a p = 1 then some (floorMod (egcd a p).2 p) else none := by
  have hpos : 0 < Nat.gcd a p := Nat.gcd_pos_of_pos_right a hp
  rw [modinv, egcd_fst]
  rcases Nat.lt_or_ge 1 (Nat.gcd a p) with hgt | hle
  · rw [if_pos hgt, if_neg (by omega)]
  · rw [if_neg (by omega), if_pos (by omega)]

/-- R83: MODINV's value is the one inverse of `a` in `[0, p)`. -/
theorem modinv_eq_some_iff {a p x : Nat} (hp : 1 ≤ p) :
    modinv a p = some x ↔ Nat.gcd a p = 1 ∧ x < p ∧ a * x % p = 1 % p := by
  rw [modinv_eq_ite hp]
  split
  case isFalse hgcd => exact iff_of_false nofun fun h => hgcd h.1
  case isTrue hgcd =>
    have hfloor := floorMod_isFloorMod (egcd a p).2 hp
    have hinv := mul_mod_eq_one_mod_of_isFloorMod hgcd hfloor
    rw [Option.some_inj]
    constructor
    · rintro rfl
      exact ⟨hgcd, hfloor.1, hinv⟩
    · rintro ⟨-, hlt, hx⟩
      exact eq_of_mul_mod_eq_one_mod hgcd hlt hfloor.1 hx hinv

theorem modinv_isSome_iff {a p : Nat} (hp : 1 ≤ p) :
    (modinv a p).isSome = true ↔ Nat.gcd a p = 1 := by
  rw [modinv_eq_ite hp]
  split
  case isTrue hgcd => exact iff_of_true rfl hgcd
  case isFalse hgcd => exact iff_of_false nofun hgcd

/-- MODINV writes `modinv` of its operands when that has a value, and else raises an error (R84). -/
theorem exec_modinv_spec (s : State) :
    ∃ t, exec .modinv s = .next t ∧
      (t.err = .success ↔ 0 < s.opb ∧ Nat.gcd s.opa s.opb = 1) ∧
      (t.err = .success → t.res < s.opb ∧ s.opa * t.res % s.opb = 1 % s.opb) := by
  obtain ⟨-, hcases⟩ := modinvWritesTheInverseOrRaises
  obtain ⟨hbadmod, hnoinv, hinverse⟩ := hcases s
  rcases Nat.eq_zero_or_pos s.opb with hzero | hpos
  · exact ⟨_, hbadmod hzero, iff_of_false nofun (by omega), nofun⟩
  · have hgcd : 0 < Nat.gcd s.opa s.opb := Nat.gcd_pos_of_pos_right _ hpos
    rcases Nat.lt_or_ge 1 (Nat.gcd s.opa s.opb) with hgt | hle
    · exact ⟨_, hnoinv hpos hgt, iff_of_false nofun (by omega), nofun⟩
    · obtain ⟨x, hexec, -, hlt, hinv, -⟩ := hinverse hpos (by omega)
      exact ⟨_, hexec, iff_of_true rfl ⟨hpos, by omega⟩, fun _ => ⟨hlt, hinv⟩⟩

theorem statusWord_mod_eq_zero_iff (b : Bool) (e : ErrorCode) :
    statusWord b e % 16 = 0 ↔ e = .success := by
  obtain ⟨herr, -, -⟩ := statusWord_fields b e
  rw [herr]
  cases e <;> decide

/-! ## The obligations -/

/-- Settles O14: the operand writes, MODINV on those operands, and the reads of what it left. -/
theorem modinvCallReturnsStatusThenInverse :
    Obligations.ModinvCallReturnsStatusThenInverse := by
  intro s a p rest hp hwidth ha hb
  obtain ⟨-, hcommand, -⟩ := stepRunsTheDecodedCommand
  have hstep := hcommand
    { s with opa := a, opb := p, pending := commandWrite .modinv :: .read 3#3 :: .read 4#3 :: rest }
    .modinv _ rfl hwidth
  obtain ⟨u, hexec, hok, hinverse⟩ := exec_modinv_spec
    { s with opa := a, opb := p, pending := .read 3#3 :: .read 4#3 :: rest }
  refine ⟨_, statusWord u.pvalid u.err, u.res,
    (runSteps_add (runSteps_operandWrites hp ha hb)).trans 
      (runSteps_command_then_reads rfl (hstep.trans hexec)),
    rfl, rfl, ?_⟩
  rw [statusWord_mod_eq_zero_iff]
  exact ⟨hok, hinverse⟩

/-- Settles O20: the loop's first remainder ends as the gcd, and its coefficient stays congruent. -/
theorem egcdReturnsGcdAndCoefficient : Obligations.EgcdReturnsGcdAndCoefficient :=
  fun a p _ => ⟨egcd_fst a p, (egcd_modEq a p).symm.dvd⟩

/-- Settles O21: the bound is the loop invariant's, and makes one addition of `p` enough. -/
theorem egcdCoefficientStaysBelowTheModulus :
    Obligations.EgcdCoefficientStaysBelowTheModulus := by
  intro a p hp
  obtain ⟨hlow, hhigh⟩ := egcd_snd_bounds (a := a) hp
  refine ⟨hlow, hhigh, fun x hx => ?_⟩
  rw [modinv_eq_ite (by omega)] at hx
  split at hx
  case isTrue =>
    cases hx
    exact floorMod_of_bounds hlow hhigh
  case isFalse => cases hx

end Sys2Proof.Machine

/-! # Proofs: laws of the commands (40_number_theory.md R85, 41_prime_field.md section 4)

The result of each command as arithmetic on its operands, and then the laws. -/

namespace Sys2Proof.Machine

/-! ## The result of each command -/

section
variable {i : Instr} {a b : Nat} {s t : State}

theorem commandResult_of_success (h : exec i { s with opa := a, opb := b } = .next t)
    (ht : t.err = .success) : commandResult i a b s = some t.res := by
  rw [commandResult, h]
  exact if_pos ht

theorem commandResult_of_error (h : exec i { s with opa := a, opb := b } = .next t)
    (ht : t.err ≠ .success) : commandResult i a b s = none := by
  rw [commandResult, h]
  exact if_neg ht

theorem exec_modinv_of_eq_none (hb : s.opb ≠ 0) (h : modinv s.opa s.opb = none) :
    exec .modinv s = .next (s.raise .noinv) := by
  rw [exec, execModinv, secondOperand, if_neg hb, firstOperand, h]

theorem exec_modinv_of_eq_some {x : Nat} (hb : s.opb ≠ 0) (h : modinv s.opa s.opb = some x) :
    exec .modinv s = .next (s.succeedWith x) := by
  rw [exec, execModinv, secondOperand, if_neg hb, firstOperand, h]

/-- For `OPB ≥ 1` the result of MODINV is R83's `modinv`. -/
theorem commandResult_modinv (a : Nat) {p : Nat} (hp : 1 ≤ p) (s : State) :
    commandResult .modinv a p s = modinv a p := by
  have hne : p ≠ 0 := Nat.one_le_iff_ne_zero.mp hp
  cases h : modinv a p with
  | none => exact commandResult_of_error (exec_modinv_of_eq_none hne h) nofun
  | some x => exact commandResult_of_success (exec_modinv_of_eq_some hne h) rfl

section
variable {f : Int → Int → Int} (hf : ∀ s, exec i s = fieldOperation f s)
include hf

theorem commandResult_fieldOperation (hv : s.pvalid = true) (hp : 1 ≤ s.p) :
    commandResult i a b s = some (floorMod (f a b) s.p) := by
  rcases fieldOperation_cases f { s with opa := a, opb := b } with
    ⟨hv', -⟩ | ⟨-, hzero, -⟩ | ⟨-, -, hnext⟩
  · exact absurd (hv.symm.trans hv') nofun
  · exact absurd hzero (Nat.one_le_iff_ne_zero.mp hp)
  · exact commandResult_of_success ((hf _).trans hnext) rfl

theorem commandResult_fieldOperation_of_not_pvalid (hv : s.pvalid = false) :
    commandResult i a b s = none :=
  commandResult_of_error ((hf _).trans (fieldOperation_of_not_pvalid f hv)) nofun

/-- Operands that give congruent integers give one result (R107). -/
theorem commandResult_congr {a' b' : Nat} (hp : 1 ≤ s.p) (h : f a b ≡ f a' b' [ZMOD s.p]) :
    commandResult i a b s = commandResult i a' b' s := by
  cases hv : s.pvalid with
  | false =>
    rw [commandResult_fieldOperation_of_not_pvalid hf hv,
      commandResult_fieldOperation_of_not_pvalid hf hv]
  | true =>
    rw [commandResult_fieldOperation hf hv hp, commandResult_fieldOperation hf hv hp,
      floorMod_congr hp h]

end

section
variable (hv : s.pvalid = true) (hp : 1 ≤ s.p)
include hv hp

theorem commandResult_fadd (a b : Nat) : commandResult .fadd a b s = some ((a + b) % s.p) := by
  rw [commandResult_fieldOperation (f := (· + ·)) (fun _ => rfl) hv hp, ← Nat.cast_add,
    floorMod_natCast hp]

theorem commandResult_fsub (a b : Nat) :
    commandResult .fsub a b s = some (floorMod ((a : Int) - b) s.p) :=
  commandResult_fieldOperation (f := (· - ·)) (fun _ => rfl) hv hp

theorem commandResult_fmul (a b : Nat) : commandResult .fmul a b s = some (a * b % s.p) := by
  rw [commandResult_fieldOperation (f := (· * ·)) (fun _ => rfl) hv hp, ← Nat.cast_mul,
    floorMod_natCast hp]

end

end

/-! ## Arithmetic modulo P -/

section
variable {a b p x : Nat}

theorem one_le_of_isPrimeNumber (hprime : IsPrimeNumber p) : 1 ≤ p :=
  le_trans (by decide) hprime.1

theorem gcd_eq_one_of_mod_ne_zero (hprime : IsPrimeNumber p) (ha : a % p ≠ 0) :
    Nat.gcd a p = 1 := by
  have hcoprime : Nat.Coprime p a :=
    (((isPrimeNumber_iff_prime p).mp hprime).coprime_iff_not_dvd).mpr
      fun hdvd => ha (Nat.mod_eq_zero_of_dvd hdvd)
  exact hcoprime.symm

/-- Every operand that is not 0 in the field has an inverse there (R106). -/
theorem exists_modinv_of_mod_ne_zero (hprime : IsPrimeNumber p) (ha : a % p ≠ 0) :
    ∃ x, modinv a p = some x ∧ a * x % p = 1 % p := by
  have hp := one_le_of_isPrimeNumber hprime
  obtain ⟨x, hx⟩ := Option.isSome_iff_exists.mp
    ((modinv_isSome_iff hp).mpr (gcd_eq_one_of_mod_ne_zero hprime ha))
  obtain ⟨-, -, hinv⟩ := (modinv_eq_some_iff hp).mp hx
  exact ⟨x, hx, hinv⟩

/-- Subtraction undoes addition, each reduced modulo P. -/
theorem floorMod_add_mod_sub (hp : 1 ≤ p) (a b : Nat) :
    floorMod (((a + b) % p : Nat) - (b : Int)) p = a % p := by
  have hsum : (((a + b) % p : Nat) : Int) ≡ (a + b : Nat) [ZMOD p] :=
    Int.natCast_modEq_iff.mpr (Nat.mod_modEq _ _)
  calc floorMod (((a + b) % p : Nat) - (b : Int)) p
    _ = floorMod ((a + b : Nat) - (b : Int)) p := floorMod_congr hp (hsum.sub_right _)
    _ = floorMod a p := by rw [Nat.cast_add, add_sub_cancel_right]
    _ = a % p := floorMod_natCast hp a

/-- Multiplying by an inverse of `b`, and then by `b`, gives back the residue. -/
theorem mul_inverse_mul_mod (hx : b * x % p = 1 % p) (a : Nat) : a * x % p * b % p = a % p := by
  have hinv : b * x ≡ 1 [MOD p] := hx
  calc a * x % p * b
    _ ≡ a * x * b [MOD p] := (Nat.mod_modEq _ _).mul_right b
    _ = a * (b * x) := by ring
    _ ≡ a * 1 [MOD p] := hinv.mul_left a
    _ = a := Nat.mul_one a

/-- R85's third law: the inverse of the inverse is the residue of the operand. -/
theorem modinv_modinv (hp : 1 ≤ p) (hx : modinv a p = some x) : modinv x p = some (a % p) := by
  obtain ⟨-, -, hinv⟩ := (modinv_eq_some_iff hp).mp hx
  have hmul : x * a ≡ 1 [MOD p] := by rw [Nat.mul_comm]; exact hinv
  exact (modinv_eq_some_iff hp).mpr ⟨Nat.coprime_of_mul_modEq_one a hmul, Nat.mod_lt a hp,
    ((Nat.mod_modEq a p).mul_left x).trans hmul⟩

/-- R85's fifth law: only the residue of the operand counts. -/
theorem modinv_congr (hp : 1 ≤ p) (h : b ≡ a [MOD p]) : modinv b p = modinv a p := by
  ext x
  have hmul : b * x % p = a * x % p := h.mul_right x
  rw [modinv_eq_some_iff hp, modinv_eq_some_iff hp, h.gcd_eq, hmul]

end

/-! ## The obligations -/

/-- Settles O36: the laws of R83's inverse, read off the result of MODINV. -/
theorem modinvLaws : Obligations.ModinvLaws := by
  intro s a p hp
  refine ⟨?success, fun x => ?value, fun x => ?involution, fun hprime ha => ?prime,
    fun b s' h => ?residue⟩ <;> simp only [commandResult_modinv _ hp]
  case success => exact modinv_isSome_iff hp
  case value => exact fun hx => ((modinv_eq_some_iff hp).mp hx).2
  case involution => exact modinv_modinv hp
  case prime => exact (modinv_isSome_iff hp).mpr (gcd_eq_one_of_mod_ne_zero hprime ha)
  case residue => exact modinv_congr hp h

/-- Settles O37: the results are residues of the exact sum, difference and product. -/
theorem fieldLaws : Obligations.FieldLaws := by
  intro s a b hinv hv
  have hprime := hinv.isPrimeNumber_p hv
  have hp := one_le_of_isPrimeNumber hprime
  simp only [commandResult_fadd hv hp, commandResult_fsub hv hp, commandResult_fmul hv hp,
    commandResult_modinv _ hp]
  refine ⟨⟨_, _, _, rfl, rfl, rfl, Nat.mod_lt _ hp, floorMod_lt hp _, Nat.mod_lt _ hp,
    ?addComm, ?mulComm, ?cancel⟩, ?addZero, ?subZero, ?mulOne, fun ha => ?inverse⟩
  case addComm => rw [Nat.add_comm]
  case mulComm => rw [Nat.mul_comm]
  case cancel => rw [floorMod_add_mod_sub hp]
  case addZero => rw [Nat.add_zero]
  case subZero => rw [Nat.cast_zero, sub_zero, floorMod_natCast hp]
  case mulOne => rw [Nat.mul_one]
  case inverse =>
    obtain ⟨x, hx, hmul⟩ := exists_modinv_of_mod_ne_zero hprime ha
    exact ⟨x, hx, by rw [hmul, Nat.mod_eq_of_lt hprime.1]⟩

/-- Settles O38: the quotient is the dividend times the inverse of the divisor. -/
theorem modinvThenFmulDividesInTheField : Obligations.ModinvThenFmulDividesInTheField := by
  intro s a b hinv hv hb
  have hprime := hinv.isPrimeNumber_p hv
  have hp := one_le_of_isPrimeNumber hprime
  obtain ⟨x, hx, hmul⟩ := exists_modinv_of_mod_ne_zero hprime hb
  simp only [commandResult_modinv _ hp, commandResult_fmul hv hp]
  exact ⟨x, _, hx, rfl, Nat.mod_lt _ hp, by rw [mul_inverse_mul_mod hmul]⟩

/-- Settles O39: residues of the operands have a congruent sum, difference and product. -/
theorem fieldCommandsMayReduceOperandsFirst :
    Obligations.FieldCommandsMayReduceOperandsFirst := by
  intro s a b i hi hp
  have hmod : ∀ n : Nat, ((n % s.p : Nat) : Int) ≡ n [ZMOD s.p] := fun n =>
    Int.natCast_modEq_iff.mpr (Nat.mod_modEq n s.p)
  simp only [List.mem_cons, List.not_mem_nil, or_false] at hi
  rcases hi with rfl | rfl | rfl
  · exact commandResult_congr (f := (· + ·)) (fun _ => rfl) hp ((hmod a).add (hmod b))
  · exact commandResult_congr (f := (· - ·)) (fun _ => rfl) hp ((hmod a).sub (hmod b))
  · exact commandResult_congr (f := (· * ·)) (fun _ => rfl) hp ((hmod a).mul (hmod b))

end Sys2Proof.Machine
